-- ==== Sys2Proof/Word.lean ====
section
/-! DEFINITION. The plain quantities of the encoder: bytes, line identifiers, the two index ranges of
the matrix, and the small named sets of values. Nothing here is wider than 12 bits, and nothing is
signed (spec/00_scope.md section 5, R7, R8, R35). -/

namespace Sys2Proof

/-- An 8-bit quantity: an HID keycode (R8) or a packed matrix keycode (R49). -/
abbrev Byte := BitVec 8

/-- A physical line identifier, `LINE_ID_W = 8` bits (R35, decision D6 of the spec). -/
abbrev LineId := BitVec 8

/-- A logical column index, `0..6` (R7: `NCOL = 7`). There is no column 7 (R13, R42). -/
abbrev Column := Fin 7

/-- A logical row index, `0..7` (R7: `NROW = 8`). -/
abbrev Row := Fin 8

/-- The 7 column levels of one `POLL`, bit `c` the level of column `c`, 0 = low = asserted (R55); also
a 7-bit set of columns. -/
abbrev Levels := BitVec 7

/-- An 8-bit row vector, bit `r` = 1 when row `r` is `CLOSED` (R19). -/
abbrev RowVec := BitVec 8

/-- One 12-bit event word (R47). -/
abbrev EventWord := BitVec 12

/-- The modifier field of a packed matrix keycode (R50). -/
inductive Modifier where
  | none | ctrl | fctn | shift
  deriving DecidableEq, Repr

/-- The index of the Modifier Table: the modifier enumeration without `None` (R34). -/
inductive ModKey where
  | ctrl | fctn | shift
  deriving DecidableEq, Repr

/-- A line level (R38); `CLOSED_LEVEL` is low and `REST_LEVEL` is high (R12, R19). -/
inductive Level where
  | low | high
  deriving DecidableEq, Repr

/-- The direction the GPIO primitive `configureLine` gives a line (R103). -/
inductive Direction where
  | input | pushPullOutput
  deriving DecidableEq, Repr

/-- A slot of the Key State Store (R14): `IDLE`, or `ROWVAL(r)`. The seven 4-bit values `0b0001` to
`0b0111` that name no slot value (U5) cannot be written in this type. -/
inductive Slot where
  | idle
  | rowval (r : Row)
  deriving DecidableEq, Repr

/-- One slot write: a column and the value it receives (R76, R77). -/
structure Write where
  col : Column
  val : Slot
  deriving DecidableEq, Repr

/-- What a packed matrix keycode byte says (R49, R52, R53). -/
inductive Keycode where
  /-- the byte `0xFF`, "no mapping" (R52) -/
  | nomap
  /-- one of the 31 other bytes with column field 7 (R53) -/
  | reserved
  /-- a (modifier, column, row) triple -/
  | key (m : Modifier) (c : Column) (r : Row)
  deriving DecidableEq, Repr

/-- The columns in ascending order, as the loops of R86 and R94 visit them. -/
def allColumns : List Column := [0, 1, 2, 3, 4, 5, 6]

/-- The rows in ascending order. -/
def allRows : List Row := [0, 1, 2, 3, 4, 5, 6, 7]

end Sys2Proof
end

