-- ==== Sys2Proof/Config.lean ====
section
/-! DEFINITION. The parameters the spec leaves OPEN (R12, D5, D6, D18): the two constant tables, the
line identifiers and the responder variant. They are an argument of the model: `State` carries one
`Config`, no operation changes it (R33), and a statement about the machine is a statement about every
configuration. Which of them are well-formed is said in Machine/Tables.lean. -/

namespace Sys2Proof

/-- Which Column Scan Responder the instance has (R11). -/
inductive Variant where
  | poll | irq
  deriving DecidableEq, Repr

/-- A configuration: the tuple of the OPEN parameters of R12. The tables hold raw bytes, so that an
ill-formed configuration can be written down and refused (R12, U3). -/
structure Config where
  /-- `VARIANT` (R11) -/
  variant : Variant
  /-- `KEYMAP`: the 83 stored bytes of `KROM`, indices `0x00` to `0x52` (R32) -/
  keymap : Vector Byte 83
  /-- `MODMAP`: the 3 bytes of `MROM`, for Ctrl, Fctn and Shift in this order (R34) -/
  modmap : Vector Byte 3
  /-- `COL_LINE[0..6]` (R35) -/
  colLine : Vector LineId 7
  /-- `ROW_LINE[0..7]` (R35) -/
  rowLine : Vector LineId 8
  deriving DecidableEq, Repr

end Sys2Proof
end

