-- ==== Sys2Proof/Machine/Fixture.lean ====
section
/-! DEFINITION. The spec's own test configuration `CFG_T` (spec/95_test_vectors.md section 1, D22). It is not
the repository's tables or pins, which no source gives (D5, D6). The model needs one concrete configuration
to write `State.reset` down, and takes this one (notes/assumptions/1.md); no statement rests on it. -/

namespace Sys2Proof

/-- `KEYMAP_T`: every keycode not listed is `NOMAP`, the byte `0xFF`. -/
def fixtureKey (h : Nat) : Byte :=
  match h with
  | 0x04 => 0x15#8 -- A, (None, 2, 5)
  | 0x05 => 0x11#8 -- B, (None, 2, 1)
  | 0x16 => 0x2B#8 -- S, (None, 5, 3)
  | 0x28 => 0x37#8 -- Enter, (None, 6, 7)
  | 0x2C => 0x00#8 -- Space, (None, 0, 0)
  | 0x2D => 0xE6#8 -- Minus, (Shift, 4, 6)
  | 0x2E => 0xD8#8 -- Equal, (Shift, 3, 0)
  | 0x4F => 0x68#8 -- Right arrow, (Ctrl, 5, 0)
  | 0x52 => 0x8A#8 -- Up arrow, (Fctn, 1, 2)
  | _ => 0xFF#8

/-- The 83 stored bytes of `KEYMAP_T`. -/
def fixtureKeymap : Vector Byte 83 := ⟨((List.range 83).map fixtureKey).toArray, by simp⟩

/-- `CFG_T` as an instance with the responder variant `v`: `MODMAP_T`, `COL_LINE[c] = 0x10 + c`,
`ROW_LINE[r] = 0x20 + r`. -/
def fixture (v : Variant) : Config where
  variant := v
  keymap := fixtureKeymap
  modmap := #v[0x06#8, 0x31#8, 0x04#8]
  colLine := #v[0x10#8, 0x11#8, 0x12#8, 0x13#8, 0x14#8, 0x15#8, 0x16#8]
  rowLine := #v[0x20#8, 0x21#8, 0x22#8, 0x23#8, 0x24#8, 0x25#8, 0x26#8, 0x27#8]

end Sys2Proof
end

