-- ==== Sys2Proof/Syntax.lean ====
section
/-! DEFINITION. The operations as syntax: one constructor for each of the 13 rows of
spec/opcode_table.json, and the items a trace of the block is written with. -/

namespace Sys2Proof

/-- One constructor per row of spec/opcode_table.json. The first seven are the operations (R46). The last
six are the table's rows of format `PK`, the classes of a packed matrix keycode (R53): the spec gives
them an effect "as SETKEY operand", so each carries the `pressed` bit `p` of the `setKey(code, pressed)`
it is the code of (notes/assumptions/8.md). -/
inductive Instr where
  /-- `RESET` (R102) -/
  | reset
  /-- `KEYUP h` (R74) -/
  | keyup (h : Byte)
  /-- `KEYDN h` (R73) -/
  | keydn (h : Byte)
  /-- `POLL lv` (R87) -/
  | poll (lv : Levels)
  /-- `EDGE id` (R95) -/
  | edge (id : LineId)
  /-- `SETKEY p, k` (R75) -/
  | setkey (p : Bool) (k : Byte)
  /-- `SLOTWR c, v` (R77) -/
  | slotwr (c : Column) (v : Slot)
  /-- `PK.NOMAP`: the byte `0xFF` (R52) -/
  | pkNomap (p : Bool)
  /-- `PK.RESERVED`: column field 7, not `0xFF` (R53) -/
  | pkReserved (p : Bool) (m : Modifier) (r : Row)
  /-- `PK.NONE`: an unchorded key (R76) -/
  | pkNone (p : Bool) (c : Column) (r : Row)
  /-- `PK.CTRL`: a key chorded with Ctrl (R76) -/
  | pkCtrl (p : Bool) (c : Column) (r : Row)
  /-- `PK.FCTN`: a key chorded with Fctn (R76) -/
  | pkFctn (p : Bool) (c : Column) (r : Row)
  /-- `PK.SHIFT`: a key chorded with Shift (R76) -/
  | pkShift (p : Bool) (c : Column) (r : Row)
  deriving DecidableEq, Repr

/-- One item of a trace: an event word (R47), or a packed keycode with the `pressed` bit above it,
`{p, k[7:0]}`, laid out as `EW[8:0]` of a `SETKEY` word is. -/
inductive Entry where
  | ew (w : EventWord)
  | pk (w : BitVec 9)
  deriving DecidableEq, Repr

end Sys2Proof
end

