-- ==== Sys2Proof/WellFormed.lean ====
section
/-! DEFINITION. Which operations are well-formed: the operand checks that the types of Syntax.lean do not
already make. -/

namespace Sys2Proof

/-- Two operands can be ill-formed: the `k` of a `SETKEY` that is one of the 31 reserved bytes of R53
(R75: "refused in a trace"), and a `PK.RESERVED` whose fields spell `0xFF`, which R53 classes as
`PK.NOMAP`. -/
def Instr.wellFormed : Instr → Bool
  | .setkey _ k => k.extractLsb' 3 3 != 7#3 || k == 0xFF#8
  | .pkReserved _ m r => !(m == .shift && r == 7)
  | .reset | .keyup _ | .keydn _ | .poll _ | .edge _ | .slotwr _ _ => true
  | .pkNomap _ | .pkNone _ _ _ | .pkCtrl _ _ _ | .pkFctn _ _ _ | .pkShift _ _ _ => true

end Sys2Proof
end

