-- ==== Sys2Proof/Decode.lean ====
section
/-! DEFINITION. The encodings: the packed matrix keycode (R49 to R53), slot values (R14, R54), event words
(R47, R48, R57), and the encoder that writes them. Decoding is total; a word that names no operation is
rejected by the name of the reason. -/

namespace Sys2Proof

/-! ## Fields -/

/-- The numeric value of a modifier (R50). -/
def Modifier.bits : Modifier → BitVec 2
  | .none => 0#2
  | .ctrl => 1#2
  | .fctn => 2#2
  | .shift => 3#2

/-- The modifier a 2-bit field names; all four values are meaningful (R50). -/
def Modifier.ofBits (b : BitVec 2) : Modifier :=
  if b = 0#2 then .none else if b = 1#2 then .ctrl else if b = 2#2 then .fctn else .shift

/-- The 3-bit field of a column. -/
def columnBits (c : Column) : BitVec 3 := BitVec.ofNat 3 c.val

/-- The column a 3-bit field names; 7 names none (R42). -/
def columnOfBits (b : BitVec 3) : Option Column :=
  if h : b.toNat < 7 then some ⟨b.toNat, h⟩ else none

/-- The 3-bit field of a row. -/
def rowBits (r : Row) : BitVec 3 := BitVec.ofNat 3 r.val

/-- The row a 3-bit field names; every value names one (R42). -/
def rowOfBits (b : BitVec 3) : Row := ⟨b.toNat, b.isLt⟩

/-- The 4-bit register contents of a slot: `0b0000` for `IDLE`, `{1, r[2:0]}` for `ROWVAL(r)` (R14, R51). -/
def Slot.bits : Slot → BitVec 4
  | .idle => 0#4
  | .rowval r => 1#1 ++ rowBits r

/-- The slot value 4 bits spell; `0b0001` to `0b0111` spell none (R14, R54). -/
def Slot.ofBits (b : BitVec 4) : Option Slot :=
  if b = 0#4 then some .idle
  else if b.extractLsb' 3 1 = 1#1 then some (.rowval (rowOfBits (b.extractLsb' 0 3)))
  else none

/-! ## The packed matrix keycode -/

/-- The `NOMAP` byte (R52). -/
def nomapByte : Byte := 0xFF#8

/-- `m = k[7:6]` (R49, R51). -/
def kModifier (k : Byte) : Modifier := Modifier.ofBits (k.extractLsb' 6 2)

/-- `c = k[5:3]`, still 3 bits: 7 names no column (R49, R51). -/
def kColumn (k : Byte) : BitVec 3 := k.extractLsb' 3 3

/-- `r = k[2:0]` (R49, R51). -/
def kRow (k : Byte) : Row := rowOfBits (k.extractLsb' 0 3)

/-- The byte of the fields `(m, c, r)`, `c` as 3 bits (R49). -/
def packByte (m : Modifier) (c : BitVec 3) (r : Row) : Byte := m.bits ++ c ++ rowBits r

/-- What a packed keycode byte says, the classes tested in the order of R53: `0xFF` first, column field 7
second, then a triple. -/
def classify (k : Byte) : Keycode :=
  if k = nomapByte then .nomap
  else match columnOfBits (kColumn k) with
    | none => .reserved
    | some c => .key (kModifier k) c (kRow k)

/-! ## Decoding -/

/-- Why an event word names no operation: the cases of R57, in its order. -/
inductive Reserved where
  /-- `op = 0b000` with a payload -/
  | resetPayload
  /-- `op = 0b010` with `EW[8:7] ≠ 0` -/
  | pollHighBits
  /-- `op = 0b011` with `EW[8] = 1` -/
  | edgeHighBit
  /-- `op = 0b101` with `EW[8:7] ≠ 0` -/
  | slotwrHighBits
  /-- `SLOTWR` with `c = 7` -/
  | slotwrColumn
  /-- `SLOTWR` with `v` in `0b0001..0b0111` -/
  | slotwrValue
  /-- `op = 0b110` -/
  | groupSix
  /-- `op = 0b111` -/
  | groupSeven
  deriving DecidableEq, Repr

/-- A row of the opcode map of R48. -/
structure OpcodeRow where
  mnemonic : String
  pattern : EventWord
  mask : EventWord
  deriving DecidableEq, Repr

/-- Whether a word matches a row: `w & mask = match`. -/
def OpcodeRow.hits (row : OpcodeRow) (w : EventWord) : Bool := w &&& row.mask == row.pattern

/-- The opcode map of R48, row for row. -/
def opcodeMap : List OpcodeRow :=
  [⟨"RESET", 0x000#12, 0xFFF#12⟩, ⟨"KEYUP", 0x200#12, 0xF00#12⟩, ⟨"KEYDN", 0x300#12, 0xF00#12⟩,
   ⟨"POLL", 0x400#12, 0xF80#12⟩, ⟨"EDGE", 0x600#12, 0xF00#12⟩, ⟨"SETKEY", 0x800#12, 0xE00#12⟩,
   ⟨"SLOTWR", 0xA00#12, 0xF80#12⟩]

/-- The operands of a word of the `SLOTWR` row: `c = EW[6:4]`, `v = EW[3:0]` (R48, R57). -/
def decodeSlotwr (w : EventWord) : Except Reserved Instr :=
  match columnOfBits (w.extractLsb' 4 3) with
  | none => .error .slotwrColumn
  | some c =>
    match Slot.ofBits (w.extractLsb' 0 4) with
    | none => .error .slotwrValue
    | some v => .ok (.slotwr c v)

/-- The reason a word that matches no row of R48 is reserved (R57), by its `op` field `EW[11:9]`. -/
def reservedReason (w : EventWord) : Reserved :=
  let op := w.extractLsb' 9 3
  if op = 0#3 then .resetPayload
  else if op = 2#3 then .pollHighBits
  else if op = 3#3 then .edgeHighBit
  else if op = 5#3 then .slotwrHighBits
  else if op = 6#3 then .groupSix
  else .groupSeven

/-- Decoding an event word: the rows of R48 in their order; a word that matches none is reserved (R57). -/
def decodeEw (w : EventWord) : Except Reserved Instr :=
  if w &&& 0xFFF#12 = 0x000#12 then .ok .reset
  else if w &&& 0xF00#12 = 0x200#12 then .ok (.keyup (w.extractLsb' 0 8))
  else if w &&& 0xF00#12 = 0x300#12 then .ok (.keydn (w.extractLsb' 0 8))
  else if w &&& 0xF80#12 = 0x400#12 then .ok (.poll (w.extractLsb' 0 7))
  else if w &&& 0xF00#12 = 0x600#12 then .ok (.edge (w.extractLsb' 0 8))
  else if w &&& 0xE00#12 = 0x800#12 then .ok (.setkey (w.getLsbD 8) (w.extractLsb' 0 8))
  else if w &&& 0xF80#12 = 0xA00#12 then decodeSlotwr w
  else .error (reservedReason w)

/-- Decoding a packed keycode with its `pressed` bit, `{p, k}`: the classes of R53 in their order. Every
byte has a class. -/
def decodePk (w : BitVec 9) : Instr :=
  let p := w.getLsbD 8
  let k : Byte := w.extractLsb' 0 8
  match classify k with
  | .nomap => .pkNomap p
  | .reserved => .pkReserved p (kModifier k) (kRow k)
  | .key .none c r => .pkNone p c r
  | .key .ctrl c r => .pkCtrl p c r
  | .key .fctn c r => .pkFctn p c r
  | .key .shift c r => .pkShift p c r

/-- Decoding one item of a trace. -/
def decode : Entry → Except Reserved Instr
  | .ew w => decodeEw w
  | .pk w => .ok (decodePk w)

/-! ## Encoding -/

/-- `{p, k}`, 9 bits. -/
def pressedByte (p : Bool) (k : Byte) : BitVec 9 := BitVec.ofBool p ++ k

/-- The packed keycode byte a `PK` row or a `SETKEY` stands for, with its `pressed` bit: the operands of
the `setKey(code, pressed)` it is. -/
def Instr.setkeyOperands : Instr → Option (Bool × Byte)
  | .setkey p k => some (p, k)
  | .pkNomap p => some (p, nomapByte)
  | .pkReserved p m r => some (p, packByte m 7#3 r)
  | .pkNone p c r => some (p, packByte .none (columnBits c) r)
  | .pkCtrl p c r => some (p, packByte .ctrl (columnBits c) r)
  | .pkFctn p c r => some (p, packByte .fctn (columnBits c) r)
  | .pkShift p c r => some (p, packByte .shift (columnBits c) r)
  | .reset | .keyup _ | .keydn _ | .poll _ | .edge _ | .slotwr _ _ => none

/-- The word of an operation (R48), or the `{p, k}` of a packed keycode (R49). -/
def encode : Instr → Entry
  | .reset => .ew 0x000#12
  | .keyup h => .ew (0b0010#4 ++ h)
  | .keydn h => .ew (0b0011#4 ++ h)
  | .poll lv => .ew (0b01000#5 ++ lv)
  | .edge id => .ew (0b0110#4 ++ id)
  | .setkey p k => .ew (0b100#3 ++ pressedByte p k)
  | .slotwr c v => .ew (0b10100#5 ++ columnBits c ++ v.bits)
  | .pkNomap p => .pk (pressedByte p nomapByte)
  | .pkReserved p m r => .pk (pressedByte p (packByte m 7#3 r))
  | .pkNone p c r => .pk (pressedByte p (packByte .none (columnBits c) r))
  | .pkCtrl p c r => .pk (pressedByte p (packByte .ctrl (columnBits c) r))
  | .pkFctn p c r => .pk (pressedByte p (packByte .fctn (columnBits c) r))
  | .pkShift p c r => .pk (pressedByte p (packByte .shift (columnBits c) r))

/-! ## The host's numbering -/

/-- The trace item whose bits are `w`, as spec/opcode_table.json numbers them: up to 8 bits it is a `PK` row
(bit 8, above the table's bits, is `p`), otherwise an event word, whose bits above 11 do not exist. -/
def entryOfTableWord (nbits w : Nat) : Option Entry :=
  if nbits ≤ 8 then
    if w < 512 then some (.pk (BitVec.ofNat 9 w)) else none
  else if w < 4096 then some (.ew (BitVec.ofNat 12 w)) else none

/-- The instruction the decoder reads from the table's bits `w`; none where it rejects. -/
def decodeTableWord (nbits w : Nat) : Option Instr :=
  match entryOfTableWord nbits w with
  | none => none
  | some e =>
    match decode e with
    | .ok i => some i
    | .error _ => none

end Sys2Proof
end

