-- ==== Sys2Proof/Machine/Tables.lean ====
section
/-! DEFINITION. The constant spaces `KROM`, `MROM` and `GEOM` (R31 to R36): the table lookups `KLOOKUP` and
`MLOOKUP`, the geometry in both directions, the line set-up a configuration asks for (R103), and when a
configuration is well-formed (R12). -/

namespace Sys2Proof

/-! ## Lookups -/

/-- `KLOOKUP(h)` (R63): `NOMAP` above `0x52` (R64), else the stored byte. -/
def Config.klookup (cfg : Config) (h : Byte) : Byte :=
  if hr : h.toNat ≤ 0x52 then cfg.keymap[h.toNat]'(by omega) else nomapByte

/-- The index of a modifier other than `None` in the Modifier Table; `None` has none (R34). -/
def Modifier.key? : Modifier → Option ModKey
  | .none => Option.none
  | .ctrl => some .ctrl
  | .fctn => some .fctn
  | .shift => some .shift

/-- `MLOOKUP(m)` (R69). -/
def Config.mlookup (cfg : Config) : ModKey → Byte
  | .ctrl => cfg.modmap[0]
  | .fctn => cfg.modmap[1]
  | .shift => cfg.modmap[2]

/-! ## Geometry -/

/-- `COL_LINE[c]` (R36). -/
def Config.columnLine (cfg : Config) (c : Column) : LineId := cfg.colLine[c.val]

/-- `ROW_LINE[r]` (R36). -/
def Config.rowLineOf (cfg : Config) (r : Row) : LineId := cfg.rowLine[r.val]

/-- `COLFIND(id)` (R94): the columns searched in ascending order; none is `NOTFOUND`. -/
def Config.colfind (cfg : Config) (id : LineId) : Option Column :=
  allColumns.find? fun c => cfg.columnLine c == id

/-- The row whose line has the identifier `id`, if one has: the physical line space read backwards (R31). -/
def Config.rowfind (cfg : Config) (id : LineId) : Option Row :=
  allRows.find? fun r => cfg.rowLineOf r == id

/-! ## Line set-up (R103) -/

/-- The 15 lines the block owns with the direction `RESET` gives each: columns inputs, rows push-pull
outputs (R103). -/
def Config.lineDirs (cfg : Config) : List (LineId × Direction) :=
  cfg.colLine.toList.map (·, Direction.input) ++ cfg.rowLine.toList.map (·, Direction.pushPullOutput)

/-- The lines whose falling edge is a notification source: the 7 column lines in an interrupt instance
(R112), none in a poll instance (R125). -/
def Config.edgeSources (cfg : Config) : List LineId :=
  match cfg.variant with
  | .irq => cfg.colLine.toList
  | .poll => []

/-! ## Well-formed configurations (R12) -/

/-- Whether a byte is one of the 31 reserved codes (R53). -/
def isReservedCode (k : Byte) : Bool := classify k == .reserved

/-- The indices of `0x00..0x52` that R66 forces to `NOMAP`, by the numbers R72 lists. -/
def unsupportedHid (h : Nat) : Bool :=
  h ≤ 0x03 || (0x29 ≤ h && h ≤ 0x2B) || (0x39 ≤ h && h ≤ 0x4E)

/-- The 15 line identifiers are pairwise distinct (R35). -/
def Config.linesDistinct (cfg : Config) : Bool :=
  decide (cfg.colLine.toList ++ cfg.rowLine.toList).Nodup

/-- K2 (R65): no stored entry is a reserved code. -/
def Config.entriesValid (cfg : Config) : Bool := cfg.keymap.toList.all fun k => !isReservedCode k

/-- K3 (R66): the unsupported keys are unmapped. -/
def Config.unsupportedUnmapped (cfg : Config) : Bool :=
  (List.range 83).all fun h => !unsupportedHid h || cfg.klookup (BitVec.ofNat 8 h) == nomapByte

/-- K4 (R67): `0x04`, A, is mapped with no modifier. -/
def Config.letterA (cfg : Config) : Bool :=
  match classify (cfg.klookup 0x04#8) with
  | .key .none _ _ => true
  | _ => false

/-- K5 (R68): `0x2D`, Minus, is mapped with Shift. -/
def Config.minusShifted (cfg : Config) : Bool :=
  match classify (cfg.klookup 0x2D#8) with
  | .key .shift _ _ => true
  | _ => false

/-- The coordinate of a Modifier Table entry with modifier field None. -/
def plainCoordinate (k : Byte) : Option (Column × Row) :=
  match classify k with
  | .key .none c r => some (c, r)
  | _ => none

/-- M1 (R70): the three entries have modifier None and pairwise distinct coordinates. -/
def Config.modifiersPlain (cfg : Config) : Bool :=
  match plainCoordinate (cfg.mlookup .ctrl), plainCoordinate (cfg.mlookup .fctn),
      plainCoordinate (cfg.mlookup .shift) with
  | some a, some b, some c => a != b && a != c && b != c
  | _, _, _ => false

/-- M2 (R71) for one entry: a chorded key lies outside its modifier key's column. -/
def Config.chordColumnsApart (cfg : Config) (k : Byte) : Bool :=
  match classify k with
  | .key m c _ =>
    match m.key? with
    | none => true
    | some key => columnOfBits (kColumn (cfg.mlookup key)) != some c
  | _ => true

/-- M2 (R71). -/
def Config.chordsIndependent (cfg : Config) : Bool := cfg.keymap.toList.all cfg.chordColumnsApart

/-- A configuration is well-formed when it meets R35 and R64 to R71 (R12). R64 holds by `Config.klookup`. -/
def Config.wellFormed (cfg : Config) : Bool :=
  cfg.linesDistinct && cfg.entriesValid && cfg.unsupportedUnmapped && cfg.letterA && cfg.minusShifted &&
    cfg.modifiersPlain && cfg.chordsIndependent

end Sys2Proof
end

