-- ==== Sys2Proof/Machine/State.lean ====
section
/-! DEFINITION. The machine's state (R28, R29), why a step can stop, and the state after reset. -/

namespace Sys2Proof.Machine

/-- The responder state (R20). -/
inductive Responder where
  | idle | servicing
  deriving DecidableEq, Repr

/-- The internal line a trace has opened and not yet shown (R61): bookkeeping of the replay, the model's own
(notes/assumptions/4.md). `none` outside a key event whose steps the trace writes out. -/
inductive ShownLine where
  | none
  /-- a key event was taken; its `SETKEY p, k` line is due -/
  | setkey (p : Bool) (k : Byte)
  /-- its `SETKEY` was shown; the first `SLOTWR` is due, and `after` becomes `PEND` with it -/
  | write (w : Write) (after : Option Write)
  deriving DecidableEq, Repr

/-- The whole state. `cfg` is the instance's constant spaces and variant (R31, R33); the next four fields
are the state R28 lists; `dirs`, `edgeReg` and `started` are what the line set-up of `RESET` leaves behind
(R103, R104, R127); `line` and `trace` are the model's own, the replay of a trace (R47, R61). -/
structure State where
  /-- `KROM`, `MROM`, `GEOM` and `VARIANT`: changed by nothing (R33) -/
  cfg : Config
  /-- the Key State Store `KS[0..6]` (R13, R14) -/
  ks : Vector Slot 7
  /-- the row output latch `ROW`, bit `r` = 1 for `CLOSED` (R19) -/
  row : RowVec
  /-- the responder state `RS` (R20) -/
  rs : Responder
  /-- the second slot write of a chord, still to be performed: `PEND` (R24) -/
  pend : Option Write
  /-- the internal line due in a written-out key event (R61) -/
  line : ShownLine
  /-- whether the first `RESET` has happened (R127) -/
  started : Bool
  /-- the directions given by `configureLine` (R103) -/
  dirs : List (LineId × Direction)
  /-- the lines registered with `onFallingEdge` (R103, R112) -/
  edgeReg : List LineId
  /-- the events that arrive at the ports, the earliest first (R21, R47) -/
  trace : List Entry
  deriving DecidableEq, Repr

/-- The block raises no exception and no operation of it can fail (R108, R85): no step faults. -/
inductive Fault where
  deriving DecidableEq, Repr

/-- Why a step has no meaning. Each is safe: the model stops where the spec gives no run. -/
inductive Refusal where
  /-- raised by `exec` for an operation that has no meaning yet; none is left -/
  | notModelled (mnemonic : String)
  /-- raised by `step` on a reserved event word (R57, U7); safe -/
  | reservedEventWord (why : Reserved)
  /-- raised by `SETKEY` and `PK.RESERVED` on one of the 31 reserved codes (R53, R75); safe -/
  | reservedKeycode (k : Byte)
  /-- raised by `POLL` and `EDGE` in an instance of the other variant (R62, U12); safe -/
  | absentVariant (present : Variant)
  /-- raised by `step`, and by `SETKEY` on a Modifier Table entry with no column, in a configuration that is
  not well-formed (R12, U3); safe -/
  | illFormedConfig
  /-- raised by `step` on any operation before the first `RESET` (R127, U6); safe -/
  | beforeFirstReset
  /-- raised by `step` on an internal line that is not the step the key event before it takes there (R61); safe -/
  | notAStepOfTheKeyEvent
  /-- raised by `step` on a key event, and with no event left, while a key event written out before has lines
  still to come: its list of lines is not whole (R24, R61); safe -/
  | keyEventUnfinished
  deriving DecidableEq, Repr

/-- An instance as it is before its first `RESET`. The spec says nothing of `KS` and `ROW` there and gives
no operation but `RESET` a meaning (R127), so the values are not observable. -/
def State.beforeReset (cfg : Config) (trace : List Entry) : State where
  cfg := cfg
  ks := Vector.replicate 7 .idle
  row := 0#8
  rs := .idle
  pend := none
  line := .none
  started := false
  dirs := []
  edgeReg := []
  trace := trace

/-- The state `RESET` leaves in an instance with configuration `cfg` (R28, R103), with nothing arriving. -/
def State.afterReset (cfg : Config) : State where
  cfg := cfg
  ks := Vector.replicate 7 .idle
  row := 0#8
  rs := .idle
  pend := none
  line := .none
  started := true
  dirs := cfg.lineDirs
  edgeReg := cfg.edgeSources
  trace := []

/-- The machine right after reset (R28). The configuration is OPEN in the spec; this one state is written
with the spec's fixture as a poll instance (notes/assumptions/1.md). -/
def State.reset : State := State.afterReset (fixture .poll)

end Sys2Proof.Machine
end

