-- ==== Sys2Proof/Machine/Operands.lean ====
section
/-! DEFINITION. The operand forms: a slot's row as a row vector, `POLL`'s levels as a set of scanned
columns, the one-column scan, and the levels at the physical lines (R19, R36, R38, R55, R61). -/

namespace Sys2Proof.Machine

/-- `onehot7(c)` (spec/00_scope.md section 5). -/
def onehot7 (c : Column) : Levels := 1#7 <<< c.val

/-- `mask = ~lv`: the columns asserted low (R55, R87). -/
def scannedColumns (lv : Levels) : Levels := ~~~lv

/-- The levels of a host that scans column `c` alone (R61). -/
def scanLevels (c : Column) : Levels := 0b1111111#7 ^^^ onehot7 c

/-- The row vector a slot contributes to a scan of its column: its row, or nothing (R86, R89). -/
def slotRows : Slot → RowVec
  | .idle => 0#8
  | .rowval r => 1#8 <<< r.val

/-- `KS[c]` of a store. -/
def slotOf (ks : Vector Slot 7) (c : Column) : Slot := ks[c.val]

/-- `M[c][r]`: the matrix view of the store (R17). -/
def matrix (ks : Vector Slot 7) (c : Column) (r : Row) : Bool := slotOf ks c == .rowval r

/-- What `configureLine` and `readLine` see of the columns: bit `c` is 1 when `COL_LINE[c]` is high (R38,
R55). -/
def sampleColumns (cfg : Config) (readLine : LineId → Level) : Levels :=
  allColumns.foldl (fun lv c => if readLine (cfg.columnLine c) = .high then lv ||| onehot7 c else lv) 0#7

/-- The level the block drives on the row line of row `r`: low when closed, high at rest (R19). -/
def rowLevel (s : State) (r : Row) : Level := if s.row.getLsbD r.val then .low else .high

/-- The level the block drives on a physical line; none on a line it does not drive (R38, R39). -/
def lineLevel (s : State) (id : LineId) : Option Level := (s.cfg.rowfind id).map (rowLevel s)

/-- The operands `(p, k)` of an operation that is a `setKey` call, as the line of a trace (R61). -/
def isSetkeyLine (i : Instr) : Bool := i.setkeyOperands.isSome

/-- A `SLOTWR` line (R61). -/
def isSlotwrLine : Instr → Bool
  | .slotwr _ _ => true
  | .reset | .keyup _ | .keydn _ | .poll _ | .edge _ | .setkey _ _ => false
  | .pkNomap _ | .pkReserved _ _ _ | .pkNone _ _ _ | .pkCtrl _ _ _ | .pkFctn _ _ _ | .pkShift _ _ _ => false

/-- A scan event: a `POLL` or an `EDGE` (spec/00_scope.md section 6). -/
def isScan : Instr → Bool
  | .poll _ | .edge _ => true
  | .reset | .keyup _ | .keydn _ | .setkey _ _ | .slotwr _ _ => false
  | .pkNomap _ | .pkReserved _ _ _ | .pkNone _ _ _ | .pkCtrl _ _ _ | .pkFctn _ _ _ | .pkShift _ _ _ => false

/-- A key event (R37). -/
def isKeyEvent : Instr → Bool
  | .keyup _ | .keydn _ => true
  | .reset | .poll _ | .edge _ | .setkey _ _ | .slotwr _ _ => false
  | .pkNomap _ | .pkReserved _ _ _ | .pkNone _ _ _ | .pkCtrl _ _ _ | .pkFctn _ _ _ | .pkShift _ _ _ => false

/-- Whether a trace item decodes to an operation of a kind. -/
def entryIs (kind : Instr → Bool) (e : Entry) : Bool :=
  match decode e with
  | .ok i => kind i
  | .error _ => false

end Sys2Proof.Machine
end

