-- ==== Sys2Proof/Machine/Ops.lean ====
section
/-! DEFINITION. The shared operations over the state: its named updates, the slot write and its place in a
chord (R24, R77), the servicing of a notification (R116, R117), the replay of written-out key events (R61),
what a step may run (R12, R24, R61, R127), and placing a word where the next step takes it. -/

namespace Sys2Proof.Machine

/-! ## Updates of one field -/

/-- `KS[c]`. -/
def State.slot (s : State) (c : Column) : Slot := slotOf s.ks c

/-- `KS[c] <- v`. -/
def State.putSlot (c : Column) (v : Slot) (s : State) : State := { s with ks := s.ks.set c.val v c.isLt }

/-- `ROW <- w`, all 8 bits as one write (R44). -/
def State.driveRows (w : RowVec) (s : State) : State := { s with row := w }

/-- Entry to the callback: `RS <- Servicing`; nothing is saved (R116). -/
def State.enterServicing (s : State) : State := { s with rs := .servicing }

/-- Return from the callback: `RS <- Idle`; nothing is restored (R117). -/
def State.leaveServicing (s : State) : State := { s with rs := .idle }

/-- `PEND <- w`. -/
def State.setPend (w : Option Write) (s : State) : State := { s with pend := w }

/-- The line due next in a written-out key event. -/
def State.setLine (l : ShownLine) (s : State) : State := { s with line := l }

/-- The events still to arrive. -/
def State.setTrace (es : List Entry) (s : State) : State := { s with trace := es }

/-! ## Slot writes -/

/-- The slot write the translator has still to perform, if it is in the middle of a key event: the first of a
written-out key event, or `PEND` (R24). -/
def State.due (s : State) : Option Write :=
  match s.line with
  | .none => s.pend
  | .setkey _ _ => none
  | .write w _ => some w

/-- Takes a write off the translator's list: after the first write of a written-out key event the second
one is `PEND`; after `PEND` nothing is pending (R24). A write that was not due changes nothing here. -/
def State.retire (w : Write) (s : State) : State :=
  match s.line with
  | .write w' after => if w = w' then (s.setLine .none).setPend after else s
  | .none => if s.pend = some w then s.setPend none else s
  | .setkey _ _ => s

/-- `SLOTWR c, v`: the slot is written, and nothing else but the translator's note of it (R77). -/
def State.slotwr (w : Write) (s : State) : State := (s.retire w).putSlot w.col w.val

/-- The writes of one `setKey` with nothing between them (R75). -/
def State.putAll (ws : List Write) (s : State) : State :=
  ws.foldl (fun s w => s.putSlot w.col w.val) s

/-! ## Reset -/

/-- `RESET`: the values of R28, the line set-up of R103, and the edge registrations, made once (R104). -/
def State.initialise (s : State) : State :=
  { s with
    ks := Vector.replicate 7 .idle
    row := 0#8
    rs := .idle
    pend := none
    line := .none
    started := true
    dirs := s.cfg.lineDirs
    edgeReg := if s.started then s.edgeReg else s.cfg.edgeSources }

/-! ## Written-out key events (R61) -/

/-- Whether the key event just taken has its internal steps written out: the next item that is not a scan event
is an internal line. Internal lines belong to the key event before them, and scan events may stand among them
(R61, R43 point 4). -/
def stepsShown : List Entry → Bool
  | [] => false
  | e :: es =>
    if entryIs isScan e then stepsShown es else entryIs (fun i => isSetkeyLine i || isSlotwrLine i) e

/-- Whether a key event is under way: a line of it is still to be shown, or its second write is pending (R24). -/
def State.keyEventOpen (s : State) : Bool := s.line != .none || s.pend.isSome

/-! ## What a step may run -/

/-- Whether an operation is one that may come now. An internal line must be the very step the key event
before it takes there (R61), and no key event starts before the one under way is done (R24). Scan events and
`RESET` may always come (R24, R43 point 4, R104). -/
def State.mayRun (i : Instr) (s : State) : Bool :=
  match i with
  | .reset | .poll _ | .edge _ => true
  | .keydn _ | .keyup _ => !s.keyEventOpen
  | .slotwr c v => s.due == some ⟨c, v⟩
  | .setkey _ _ | .pkNomap _ | .pkReserved _ _ _ | .pkNone _ _ _ | .pkCtrl _ _ _ | .pkFctn _ _ _
  | .pkShift _ _ _ =>
    match i.setkeyOperands with
    | some (p, k) => s.line == .setkey p k
    | none => false

/-- Why an operation may not come now, if it may not: a run begins with `RESET` (R127), and the internal lines
of a key event are exactly its steps, all of them before the next key event (R24, R61). -/
def State.admission (i : Instr) (s : State) : Option Refusal :=
  if s.started || i == .reset then
    if s.mayRun i then none
    else if isKeyEvent i then some .keyEventUnfinished
    else some .notAStepOfTheKeyEvent
  else some .beforeFirstReset

/-- The step with no event left: the block waits, for it has no halt (R140); but a trace that ends before the
lines of a written-out key event do is refused (R61). -/
def State.await (s : State) : Host.Outcome State Fault Refusal :=
  if s.keyEventOpen then .refused .keyEventUnfinished else .next s

/-! ## Placing a word -/

/-- The same instance with the other responder: its variant, and the notification sources that go with it
(R112, R125). -/
def State.asVariant (v : Variant) (s : State) : State :=
  { s with
    cfg := { s.cfg with variant := v }
    edgeReg := if s.started then { s.cfg with variant := v }.edgeSources else s.edgeReg }

/-- The state in which an operation may come: a scan event in an instance of its variant (R62), a key event
with nothing pending (R24), an internal operation at its place in a key event (R61). -/
def State.readyFor (i : Instr) (s : State) : State :=
  match i with
  | .reset => s
  | .poll _ => s.asVariant .poll
  | .edge _ => s.asVariant .irq
  | .keydn _ | .keyup _ => (s.setPend none).setLine .none
  | .slotwr c v => (s.setLine .none).setPend (some ⟨c, v⟩)
  | .setkey _ _ | .pkNomap _ | .pkReserved _ _ _ | .pkNone _ _ _ | .pkCtrl _ _ _ | .pkFctn _ _ _
  | .pkShift _ _ _ =>
    match i.setkeyOperands with
    | some (p, k) => (s.setPend none).setLine (.setkey p k)
    | none => s

/-- The item whose bits are `w` as the one event that arrives, and the state it needs to be run by the next
step. A number that is no item of the table's widths places nothing. -/
def State.placeWord (s : State) (nbits w : Nat) : State :=
  match entryOfTableWord nbits w with
  | none => s
  | some e =>
    match decode e with
    | .ok i => (s.setTrace [e]).readyFor i
    | .error _ => s.setTrace [e]

end Sys2Proof.Machine
end

