-- ==== Sys2Proof/Machine/Scan.lean ====
section
/-! DEFINITION. The row-output multiplexer `ROWSEL` and the two Column Scan Responders: the meanings of `POLL`
and `EDGE` (spec/42_scan_poll.md, spec/43_scan_irq.md). -/

namespace Sys2Proof.Machine

/-- `ROWSEL(mask, KS)` (R86): the rows recorded by the scanned columns. -/
def rowsel (mask : Levels) (ks : Vector Slot 7) : RowVec :=
  allColumns.foldl (fun w c => if mask.getLsbD c.val then w ||| slotRows (slotOf ks c) else w) 0#8

/-- `POLL lv` (R87): in a poll instance, `ROW` becomes the rows of the columns asserted low. -/
def execPoll (lv : Levels) (s : State) : Host.Outcome State Fault Refusal :=
  match s.cfg.variant with
  | .poll => .next (s.driveRows (rowsel (scannedColumns lv) s.ks))
  | .irq => .refused (.absentVariant .irq)

/-- The body of the callback (R95): a recognised column drives its rows, any other line nothing (R97). -/
def service (id : LineId) (s : State) : State :=
  match s.cfg.colfind id with
  | some c => s.driveRows (rowsel (onehot7 c) s.ks)
  | none => s

/-- `EDGE id` (R95): in an interrupt instance, one servicing, entered and left as one step (R116 to R118). -/
def execEdge (id : LineId) (s : State) : Host.Outcome State Fault Refusal :=
  match s.cfg.variant with
  | .irq => .next (service id s.enterServicing).leaveServicing
  | .poll => .refused (.absentVariant .poll)

end Sys2Proof.Machine
end

