-- ==== Sys2Proof/Machine/System.lean ====
section
/-! DEFINITION. The one system-level operation, `RESET` (R102, R105). -/

namespace Sys2Proof.Machine

/-- `RESET` (R102): the reset state from any state (R104). -/
def execReset (s : State) : Host.Outcome State Fault Refusal := .next s.initialise

end Sys2Proof.Machine
end

