-- ==== Sys2Proof/Machine/Translator.lean ====
section
/-! DEFINITION. The HID Event Translator: `EXPAND` and the meanings of `KEYDN`, `KEYUP`, `SETKEY`, `SLOTWR`
and of the packed-keycode rows, each of which is a `SETKEY` of its class (spec/41_translator.md). -/

namespace Sys2Proof.Machine

/-- The value a press or a release writes (R76). -/
def pressValue (p : Bool) (r : Row) : Slot := if p then .rowval r else .idle

/-- `EXPAND(k, p)` (R76): one write for an unchorded key; for a chorded key the modifier key's write, then the
primary key's. The Modifier Table entry's own modifier field is not examined. None where `k` is no key, or
where the entry's column field names no column (neither happens in a well-formed configuration). -/
def expand (cfg : Config) (k : Byte) (p : Bool) : Option (List Write) :=
  match classify k with
  | .key m c r =>
    match m.key? with
    | none => some [⟨c, pressValue p r⟩]
    | some key =>
      let km := cfg.mlookup key
      match columnOfBits (kColumn km) with
      | none => none
      | some cm => some [⟨cm, pressValue p (kRow km)⟩, ⟨c, pressValue p r⟩]
  | .nomap | .reserved => none

/-- The writes of one `setKey`: performed at once, or, where the trace writes the key event out, left to the
`SLOTWR` lines that must follow (R61, R75). -/
def performWrites (writtenOut : Bool) (ws : List Write) (s : State) : State :=
  match ws with
  | [] => s.setLine .none
  | w :: rest => if writtenOut then s.setLine (.write w rest.head?) else (s.setLine .none).putAll ws

/-- `SETKEY p, k` (R75), as the line due in a written-out key event or as the whole call. A reserved code is
refused (R53). -/
def setKey (p : Bool) (k : Byte) (s : State) : Host.Outcome State Fault Refusal :=
  match classify k with
  | .nomap => .next (s.setLine .none)
  | .reserved => .refused (.reservedKeycode k)
  | .key _ _ _ =>
    match expand s.cfg k p with
    | none => .refused .illFormedConfig
    | some ws => .next (performWrites (s.line == .setkey p k) ws s)

/-- A key event (R73, R74): `SETKEY(p, KLOOKUP(h))`, whole, or, where the trace writes the event's steps out,
left to the lines that must follow (R61). When a key event may come is said by `State.admission`. -/
def keyEvent (p : Bool) (h : Byte) (s : State) : Host.Outcome State Fault Refusal :=
  if stepsShown s.trace then .next (s.setLine (.setkey p (s.cfg.klookup h)))
  else setKey p (s.cfg.klookup h) (s.setLine .none)

/-! ## The meanings -/

/-- `KEYDN h` (R73). -/
def execKeydn (h : Byte) (s : State) : Host.Outcome State Fault Refusal := keyEvent true h s

/-- `KEYUP h` (R74). -/
def execKeyup (h : Byte) (s : State) : Host.Outcome State Fault Refusal := keyEvent false h s

/-- `SETKEY p, k` (R75). -/
def execSetkey (p : Bool) (k : Byte) (s : State) : Host.Outcome State Fault Refusal := setKey p k s

/-- `SLOTWR c, v` (R77). -/
def execSlotwr (c : Column) (v : Slot) (s : State) : Host.Outcome State Fault Refusal :=
  .next (s.slotwr ⟨c, v⟩)

/-- `PK.NOMAP` as the code of a `setKey`: a no-op (R52, R75). -/
def execPkNomap (p : Bool) (s : State) : Host.Outcome State Fault Refusal := setKey p nomapByte s

/-- `PK.RESERVED`: refused (R53, R75). -/
def execPkReserved (_p : Bool) (m : Modifier) (r : Row) (_s : State) : Host.Outcome State Fault Refusal :=
  .refused (.reservedKeycode (packByte m 7#3 r))

/-- `PK.NONE` as the code of a `setKey`: one slot write (R76). -/
def execPkNone (p : Bool) (c : Column) (r : Row) (s : State) : Host.Outcome State Fault Refusal :=
  setKey p (packByte .none (columnBits c) r) s

/-- `PK.CTRL` as the code of a `setKey`: the Ctrl key's slot, then the key's (R76). -/
def execPkCtrl (p : Bool) (c : Column) (r : Row) (s : State) : Host.Outcome State Fault Refusal :=
  setKey p (packByte .ctrl (columnBits c) r) s

/-- `PK.FCTN` as the code of a `setKey`: the Fctn key's slot, then the key's (R76). -/
def execPkFctn (p : Bool) (c : Column) (r : Row) (s : State) : Host.Outcome State Fault Refusal :=
  setKey p (packByte .fctn (columnBits c) r) s

/-- `PK.SHIFT` as the code of a `setKey`: the Shift key's slot, then the key's (R76). -/
def execPkShift (p : Bool) (c : Column) (r : Row) (s : State) : Host.Outcome State Fault Refusal :=
  setKey p (packByte .shift (columnBits c) r) s

end Sys2Proof.Machine
end

