-- ==== Sys2Proof/Machine/Dispatch.lean ====
section
/-! DEFINITION. One arm per operation (R46) and per packed-keycode row (R53). -/

namespace Sys2Proof.Machine

def exec (i : Instr) (s : State) : Host.Outcome State Fault Refusal :=
  match i with
  | .reset => Sys2Proof.Machine.execReset s
  | .keyup h => Sys2Proof.Machine.execKeyup h s
  | .keydn h => Sys2Proof.Machine.execKeydn h s
  | .poll lv => Sys2Proof.Machine.execPoll lv s
  | .edge id => Sys2Proof.Machine.execEdge id s
  | .setkey p k => Sys2Proof.Machine.execSetkey p k s
  | .slotwr c v => Sys2Proof.Machine.execSlotwr c v s
  -- the packed-keycode classes, each as the code of a setKey
  | .pkNomap p => Sys2Proof.Machine.execPkNomap p s
  | .pkReserved p m r => Sys2Proof.Machine.execPkReserved p m r s
  | .pkNone p c r => Sys2Proof.Machine.execPkNone p c r s
  | .pkCtrl p c r => Sys2Proof.Machine.execPkCtrl p c r s
  | .pkFctn p c r => Sys2Proof.Machine.execPkFctn p c r s
  | .pkShift p c r => Sys2Proof.Machine.execPkShift p c r s

end Sys2Proof.Machine
end

