-- ==== Sys2Proof/Machine/Step.lean ====
section
/-! DEFINITION. One step of the machine: the next event that arrives is decoded and run (R21, R43, R47). -/

namespace Sys2Proof.Machine

/-- One step. A configuration that is not well-formed is not run (R12). With no event arriving the block waits
(R140). An event is decoded (R57), held against what may come now (R24, R61, R127), and run with the events
after it still to arrive. -/
def step (s : State) : Host.Outcome State Fault Refusal :=
  if s.cfg.wellFormed then
    match s.trace with
    | [] => s.await
    | e :: rest =>
      match decode e with
      | .error why => .refused (.reservedEventWord why)
      | .ok i =>
        match s.admission i with
        | some r => .refused r
        | none => exec i (s.setTrace rest)
  else .refused .illFormedConfig

/-- `s` with the item of spec/opcode_table.json whose bits are `w` as the one event that arrives, at the place
in a run where that operation may come (notes/assumptions/5.md). -/
def State.withFetchWord (s : State) (nbits w : Nat) : State := s.placeWord nbits w

end Sys2Proof.Machine
end

