-- ==== Sys2Proof/Machine/Pseudo.lean ====
section
/-! DEFINITION. The pseudo-operations of a trace (R61). -/

namespace Sys2Proof.Machine

/-- `SCAN c`, `SCANNONE` and `TAP h` (R61). -/
inductive Pseudo where
  | scan (c : Column)
  | scanNone
  | tap (h : Byte)
  deriving DecidableEq, Repr

/-- The expansion of a pseudo-operation in an instance; `SCANNONE` is defined in a poll instance only (R61). -/
def Pseudo.expansion (cfg : Config) : Pseudo → Option (List Instr)
  | .scan c =>
    match cfg.variant with
    | .poll => some [.poll (scanLevels c)]
    | .irq => some [.edge (cfg.columnLine c)]
  | .scanNone =>
    match cfg.variant with
    | .poll => some [.poll 0b1111111#7]
    | .irq => none
  | .tap h => some [.keydn h, .keyup h]

end Sys2Proof.Machine
end

