-- ==== Sys2Proof/Machine/TraceText.lean ====
section
/-! DEFINITION. The written form of a trace (R60): one operation a line, the mnemonic in capitals, operands
separated by commas, numbers as in spec/00_scope.md section 5, `;` starting a comment. Text is a list of
characters. A packed-keycode row has no line of its own; it is written as the `SETKEY` it is the code of. -/

namespace Sys2Proof.Machine

/-! ## Writing -/

/-- The digits of a number, each at the place of its value; the binary and decimal ones come first. -/
def digitRow : List Char := "0123456789ABCDEF".toList

/-- One hexadecimal digit of a number below 16. -/
def hexDigit (n : Nat) : Char := digitRow.getD n '?'

/-- A number of up to 8 bits as `0x` and two digits. -/
def hexByte (n : Nat) : List Char := ['0', 'x', hexDigit (n / 16), hexDigit (n % 16)]

/-- Column levels as `0b` and 7 digits, column 6 first. -/
def binLevels (lv : Levels) : List Char :=
  ['0', 'b'] ++ allColumns.reverse.map fun c => if lv.getLsbD c.val then '1' else '0'

/-- The line of a `setKey` call: `SETKEY p, k`. -/
def setkeyText (p : Bool) (k : Byte) : List Char :=
  "SETKEY ".toList ++ [if p then '1' else '0', ',', ' '] ++ hexByte k.toNat

/-- The line of an operation (R60). -/
def instrText (i : Instr) : List Char :=
  match i with
  | .reset => "RESET".toList
  | .keyup h => "KEYUP ".toList ++ hexByte h.toNat
  | .keydn h => "KEYDN ".toList ++ hexByte h.toNat
  | .poll lv => "POLL ".toList ++ binLevels lv
  | .edge id => "EDGE ".toList ++ hexByte id.toNat
  | .slotwr c v =>
    "SLOTWR ".toList ++ [hexDigit c.val, ',', ' ', '0', 'x', hexDigit v.bits.toNat]
  | .setkey _ _ | .pkNomap _ | .pkReserved _ _ _ | .pkNone _ _ _ | .pkCtrl _ _ _ | .pkFctn _ _ _
  | .pkShift _ _ _ =>
    match i.setkeyOperands with
    | some (p, k) => setkeyText p k
    | none => []

/-! ## Reading -/

/-- The value of a digit character, in either case: its place in the row of digits, if it stands there. -/
def digitValue (c : Char) : Option Nat := digitRow.findIdx? (· == c.toUpper)

/-- A digit string in a base, added to what stands to its left. -/
def readDigits (base acc : Nat) : List Char → Option Nat
  | [] => some acc
  | c :: cs =>
    match digitValue c with
    | some d => if d < base then readDigits base (acc * base + d) cs else none
    | none => none

/-- A number: `0x` hexadecimal, `0b` binary, all else decimal (spec/00_scope.md section 5). -/
def readNumber : List Char → Option Nat
  | '0' :: 'x' :: c :: cs => readDigits 16 0 (c :: cs)
  | '0' :: 'b' :: c :: cs => readDigits 2 0 (c :: cs)
  | c :: cs => readDigits 10 0 (c :: cs)
  | [] => none

/-- A number below a bound. -/
def readBelow (bound : Nat) (t : List Char) : Option Nat :=
  match readNumber t with
  | some n => if n < bound then some n else none
  | none => none

/-- An 8-bit operand. -/
def readByte (t : List Char) : Option Byte := (readBelow 256 t).map (BitVec.ofNat 8)

/-- A column operand. -/
def readColumn (t : List Char) : Option Column :=
  match readBelow 8 t with
  | some n => columnOfBits (BitVec.ofNat 3 n)
  | none => none

/-- A slot-value operand (R54). -/
def readSlot (t : List Char) : Option Slot :=
  match readBelow 16 t with
  | some n => Slot.ofBits (BitVec.ofNat 4 n)
  | none => none

/-- The words of a line: its comment dropped, split at spaces, tabs and commas. -/
def lineWords (line : List Char) : List (List Char) :=
  let split (c : Char) (acc : List (List Char)) : List (List Char) :=
    if c == ' ' || c == ',' || c == '\t' then [] :: acc
    else match acc with
      | [] => [[c]]
      | t :: ts => (c :: t) :: ts
  ((line.takeWhile (· != ';')).foldr split [[]]).filter (· != [])

/-- What a line of a trace holds. -/
inductive TraceLine where
  | blank
  | op (i : Instr)
  | pseudo (q : Pseudo)
  deriving DecidableEq, Repr

/-- An operand read, and the operation made of it. -/
def readOp {α : Type} (operand : Option α) (make : α → Instr) : Option TraceLine :=
  operand.map fun a => .op (make a)

/-- Two operands read, and the operation made of them. -/
def readOp2 {α β : Type} (a : Option α) (b : Option β) (make : α → β → Instr) : Option TraceLine :=
  match a, b with
  | some a, some b => some (.op (make a b))
  | _, _ => none

/-- Reading a line (R60, R61); none where it is no line of a trace. -/
def readLine (line : List Char) : Option TraceLine :=
  match lineWords line with
  | [] => some .blank
  | [m] =>
    if m = "RESET".toList then some (.op .reset)
    else if m = "SCANNONE".toList then some (.pseudo .scanNone)
    else none
  | [m, a] =>
    if m = "KEYUP".toList then readOp (readByte a) .keyup
    else if m = "KEYDN".toList then readOp (readByte a) .keydn
    else if m = "POLL".toList then readOp (readBelow 128 a) fun n => .poll (BitVec.ofNat 7 n)
    else if m = "EDGE".toList then readOp (readByte a) .edge
    else if m = "SCAN".toList then (readColumn a).map fun c => .pseudo (.scan c)
    else if m = "TAP".toList then (readByte a).map fun h => .pseudo (.tap h)
    else none
  | [m, a, b] =>
    if m = "SETKEY".toList then readOp2 (readBelow 2 a) (readByte b) fun p k => .setkey (p == 1) k
    else if m = "SLOTWR".toList then readOp2 (readColumn a) (readSlot b) .slotwr
    else none
  | _ :: _ :: _ :: _ :: _ => none

end Sys2Proof.Machine
end

