-- ==== Sys2Proof/Machine/Flags.lean ====
section
/-! DEFINITION. The block has no flags, condition codes or status results (R22). What it has in their place
are the three named conditions of spec/60_exceptions.md section 1, none of which is recorded anywhere, and
the two execution contexts of its section 3. -/

namespace Sys2Proof.Machine

/-- The conditions (R109 to R111). -/
inductive Condition where
  /-- (a) an HID keycode with no table entry (R109) -/
  | unmappedKey
  /-- (b) a falling edge on a line that is no column line (R110) -/
  | unrecognizedLine
  /-- (c) a malformed packed keycode (R111) -/
  | malformedKeycode
  deriving DecidableEq, Repr

/-- The condition an operation meets in a state, if it meets one. Condition (b) cannot arise in a poll instance,
which reads only its own 7 column lines (R110). -/
def condition (i : Instr) (s : State) : Option Condition :=
  match i with
  | .keydn h | .keyup h => if s.cfg.klookup h = nomapByte then some .unmappedKey else none
  | .edge id =>
    match s.cfg.variant with
    | .irq => if s.cfg.colfind id = none then some .unrecognizedLine else none
    | .poll => none
  | .setkey _ k => if isReservedCode k then some .malformedKeycode else none
  | .pkReserved _ _ _ => some .malformedKeycode
  | .reset | .poll _ | .slotwr _ _ => none
  | .pkNomap _ | .pkNone _ _ _ | .pkCtrl _ _ _ | .pkFctn _ _ _ | .pkShift _ _ _ => none

/-- The two execution contexts (R121). `RESET` belongs to neither: it is the environment's (R46). -/
inductive Context where
  | normal | callback
  deriving DecidableEq, Repr

/-- The context an operation runs in (R121). -/
def context : Instr → Option Context
  | .reset => none
  | .edge _ => some .callback
  | .keyup _ | .keydn _ | .poll _ | .setkey _ _ | .slotwr _ _ => some .normal
  | .pkNomap _ | .pkReserved _ _ _ | .pkNone _ _ _ | .pkCtrl _ _ _ | .pkFctn _ _ _ | .pkShift _ _ _ =>
    some .normal

/-- Whether an operation may write the Key State Store (R16, R121). -/
def mayWriteStore : Instr → Bool
  | .reset | .keyup _ | .keydn _ | .setkey _ _ | .slotwr _ _ => true
  | .pkNomap _ | .pkReserved _ _ _ | .pkNone _ _ _ | .pkCtrl _ _ _ | .pkFctn _ _ _ | .pkShift _ _ _ => true
  | .poll _ | .edge _ => false

/-- Whether an operation may write the row output latch (R19, R121). -/
def mayWriteRows : Instr → Bool
  | .reset | .poll _ | .edge _ => true
  | .keyup _ | .keydn _ | .setkey _ _ | .slotwr _ _ => false
  | .pkNomap _ | .pkReserved _ _ _ | .pkNone _ _ _ | .pkCtrl _ _ _ | .pkFctn _ _ _ | .pkShift _ _ _ => false

end Sys2Proof.Machine
end

