-- ==== Sys2Proof/Safety.lean ====
section
/-! DEFINITION. What the states of a run have in common, in the terms the statements use. -/

namespace Sys2Proof.Machine

/-- The line due in a written-out key event fits the event: its code came from the Keycode Table (R75), its
two writes go to different slots (R71), and nothing is pending yet (R24). -/
def State.lineFits (s : State) : Bool :=
  match s.line with
  | .none => true
  | .setkey _ k => s.pend == none && (k == nomapByte || s.cfg.keymap.toList.contains k)
  | .write w after => s.pend == none && (match after with | none => true | some w' => w.col != w'.col)

/-- The line set-up of `RESET` stands once the first `RESET` has happened (R103, R112). -/
def State.linesSetUp (s : State) : Bool :=
  !s.started || (s.dirs == s.cfg.lineDirs && s.edgeReg == s.cfg.edgeSources)

/-- The invariant of a run: the configuration is well-formed (R12), the responder is idle between operations
(R20), the lines are set up (R103), and the open line of a written-out key event fits it (R24, R71, R75). -/
def State.Inv (s : State) : Prop :=
  s.cfg.wellFormed = true ∧ s.rs = .idle ∧ s.linesSetUp = true ∧ s.lineFits = true

end Sys2Proof.Machine
end

