-- ==== Sys2Proof/Certificates/Slice0/Obligations.lean ====
section
/-! DEFINITION. The statements for the provers. Each quantifies over every configuration, or says which
constraint of R12 it needs; none rests on the configuration `State.reset` is written with.

Vocabulary: a key event "is not written out" when `stepsShown s.trace = false`, and a `SETKEY p, k` is a line of
one that is when `s.line = .setkey p k` (R61). The conditions `s.pend = none` and `s.line = .none` say that the
translator is between key events (R24). -/

open Sys2Proof Sys2Proof.Machine

/-! ## Encodings -/

/-- R48, R49: the encoding of every well-formed operation decodes to it, operands included. -/
def Obligations.DecodeOfEncodeIsTheOperation : Prop :=
  ∀ i : Instr, i.wellFormed = true → decode (encode i) = .ok i

/-- R48, R53: a word or byte that decodes is the encoding of what it decodes to, so that no two words mean
the same and no bit is dropped. -/
def Obligations.EncodeOfDecodeIsTheWord : Prop :=
  ∀ (e : Entry) (i : Instr), decode e = .ok i → encode i = e

/-- R57 (the spec's decision D17): exactly these words name no operation, and a step on one refuses it. -/
def Obligations.ReservedWordsAreRefused : Prop :=
  (∀ w : EventWord,
    (∃ why, decode (.ew w) = .error why) ↔
      (w.extractLsb' 9 3 = 0#3 ∧ w.extractLsb' 0 9 ≠ 0#9) ∨
      (w.extractLsb' 9 3 = 2#3 ∧ w.extractLsb' 7 2 ≠ 0#2) ∨
      (w.extractLsb' 9 3 = 3#3 ∧ w.extractLsb' 8 1 ≠ 0#1) ∨
      (w.extractLsb' 9 3 = 5#3 ∧
        (w.extractLsb' 7 2 ≠ 0#2 ∨ w.extractLsb' 4 3 = 7#3 ∨
          (1 ≤ (w.extractLsb' 0 4).toNat ∧ (w.extractLsb' 0 4).toNat ≤ 7))) ∨
      w.extractLsb' 9 3 = 6#3 ∨ w.extractLsb' 9 3 = 7#3) ∧
  ∀ (s : State) (w : EventWord) (rest : List Entry) (why : Reserved),
    s.cfg.wellFormed = true → s.trace = .ew w :: rest → decode (.ew w) = .error why →
      step s = .refused (.reservedEventWord why)

/-- R48, R53 (checked against spec/95_test_vectors.md section 3): words written out from the encodings. (The table's
packed-keycode rows have 8 bits; the `pressed` bit above the byte, bit 8 of the six `.pk` items, is the model's
choice, notes/assumptions/8.md.) -/
def Obligations.SampleWordsDecode : Prop :=
  decode (.ew 0b000000000000#12) = .ok .reset ∧
  decode (.ew 0b001000000100#12) = .ok (.keyup 0x04#8) ∧
  decode (.ew 0b001100101101#12) = .ok (.keydn 0x2D#8) ∧
  decode (.ew 0b010001111011#12) = .ok (.poll 0b1111011#7) ∧
  decode (.ew 0b011000010100#12) = .ok (.edge 0x14#8) ∧
  decode (.ew 0b100111100110#12) = .ok (.setkey true 0xE6#8) ∧
  decode (.ew 0b101001001110#12) = .ok (.slotwr 4 (.rowval 6)) ∧
  decode (.pk 0b011111111#9) = .ok (.pkNomap false) ∧
  decode (.pk 0b010111000#9) = .ok (.pkReserved false .fctn 0) ∧
  decode (.pk 0b100110111#9) = .ok (.pkNone true 6 7) ∧
  decode (.pk 0b001101000#9) = .ok (.pkCtrl false 5 0) ∧
  decode (.pk 0b110001010#9) = .ok (.pkFctn true 1 2) ∧
  decode (.pk 0b011110111#9) = .ok (.pkShift false 6 7)

/-- R51, R52, R53: a packed keycode byte is `NOMAP` when it is `0xFF`, reserved when its column field is 7
otherwise, and else the key of its fields `k[7:6]`, `k[5:3]`, `k[2:0]`. -/
def Obligations.PackedKeycodeFields : Prop :=
  ∀ k : Byte,
    (classify k = .nomap ↔ k = 0xFF#8) ∧
    (classify k = .reserved ↔ k.extractLsb' 3 3 = 7#3 ∧ k ≠ 0xFF#8) ∧
    ∀ (m : Modifier) (c : Column) (r : Row),
      classify k = .key m c r ↔
        (k.extractLsb' 6 2).toNat = (match m with | .none => 0 | .ctrl => 1 | .fctn => 2 | .shift => 3) ∧
        (k.extractLsb' 3 3).toNat = c.val ∧ (k.extractLsb' 0 3).toNat = r.val

/-- R60: the written line of each of the seven operations reads back as the operation. -/
def Obligations.WrittenLineReadsBack : Prop :=
  ∀ i : Instr, (∀ p k, i.setkeyOperands = some (p, k) → i = .setkey p k) →
    readLine (instrText i) = some (.op i)

/-! ## Reset -/

/-- R102, R103 (the spec's decision D16): from any state `RESET` gives idle slots, rows at rest, an idle responder and nothing pending, and
sets the lines up; the constant spaces are as they were. -/
def Obligations.ResetGivesTheResetState : Prop :=
  ∀ s : State, ∃ t, exec .reset s = .next t ∧
    (∀ c, t.slot c = .idle) ∧ t.row = 0#8 ∧ (∀ r, rowLevel t r = .high) ∧ t.rs = .idle ∧ t.pend = none ∧
    t.line = .none ∧ t.started = true ∧ t.cfg = s.cfg ∧ t.trace = s.trace ∧
    t.dirs.length = 15 ∧
    (∀ c, (s.cfg.columnLine c, Direction.input) ∈ t.dirs) ∧
    (∀ r, (s.cfg.rowLineOf r, Direction.pushPullOutput) ∈ t.dirs) ∧
    (s.started = false →
      t.edgeReg = match s.cfg.variant with | .irq => s.cfg.colLine.toList | .poll => [])

/-- R104 (the spec's decision D21): a second `RESET` changes nothing, registers nothing again, and discards a pending write. -/
def Obligations.ResetIsIdempotent : Prop :=
  ∀ s : State, ∃ t, exec .reset s = .next t ∧ exec .reset t = .next t ∧ t.pend = none ∧
    (s.started = true → t.edgeReg = s.edgeReg)

/-- R28 (the spec's decision D16): the first `RESET` of an instance leaves the reset values, whatever its
configuration, and `State.reset` is such a state. -/
def Obligations.FirstResetLeavesTheResetValues : Prop :=
  (∀ (cfg : Config) (es : List Entry),
    exec .reset (State.beforeReset cfg es) = .next ((State.afterReset cfg).setTrace es) ∧
    (∀ c, (State.afterReset cfg).slot c = .idle) ∧ (State.afterReset cfg).row = 0#8 ∧
    (State.afterReset cfg).rs = .idle ∧ (State.afterReset cfg).pend = none ∧
    (State.afterReset cfg).cfg = cfg) ∧
  State.reset = State.afterReset State.reset.cfg

/-! ## The step -/

/-- R21, R47: when the next event decodes to an operation that may come now, the step is that operation, run
with the events after it still to arrive. The conditions of `State.admission` are stated by
`OperationBeforeResetRefused` and `StrayInternalLineRefused`. -/
def Obligations.StepRunsTheNextEvent : Prop :=
  ∀ (s : State) (e : Entry) (rest : List Entry) (i : Instr),
    s.cfg.wellFormed = true → s.trace = e :: rest → decode e = .ok i → s.admission i = none →
      step s = exec i { s with trace := rest }

/-- R24, R43 point 4, R61, R104: in a run, scan events and `RESET` may always come, a key event may come whenever no
other is under way, and the internal line due in a written-out one may come. (Which line is due is the model's
bookkeeping of R61's replay, notes/assumptions/4.md.) -/
def Obligations.PortEventsMayAlwaysCome : Prop :=
  ∀ s : State, s.started = true →
    s.admission .reset = none ∧ (∀ lv, s.admission (.poll lv) = none) ∧ (∀ id, s.admission (.edge id) = none) ∧
    (s.line = .none → s.pend = none → ∀ h, s.admission (.keydn h) = none ∧ s.admission (.keyup h) = none) ∧
    (∀ w, s.due = some w → s.admission (.slotwr w.col w.val) = none) ∧
    ∀ p k, s.line = .setkey p k → s.admission (.setkey p k) = none

/-- R140, R61: with no event left the block waits as it is when no key event is under way, and otherwise, since
the lines of a written-out key event are not whole, the trace is refused. (That a step without an event is a
wait is the model's choice, notes/assumptions/5.md; that R61 refuses a list cut short by the end of the trace is
the model's reading, notes/assumptions/6.md.) -/
def Obligations.StepWithNoEvent : Prop :=
  ∀ s : State, s.cfg.wellFormed = true → s.trace = [] →
    (s.line = .none → s.pend = none → step s = .next s) ∧
    (s.line ≠ .none ∨ s.pend ≠ none → step s = .refused .keyEventUnfinished)

/-- R127: before the first `RESET` any other operation is refused, and `RESET` runs. -/
def Obligations.OperationBeforeResetRefused : Prop :=
  ∀ (s : State) (e : Entry) (rest : List Entry) (i : Instr),
    s.cfg.wellFormed = true → s.started = false → s.trace = e :: rest → decode e = .ok i →
      (i ≠ .reset → step s = .refused .beforeFirstReset) ∧
      (i = .reset → ∃ t, step s = .next t ∧ t.started = true)

/-- R12, R111, U3 (the spec's decision D19): a configuration that is not well-formed is not run. -/
def Obligations.IllFormedConfigurationRefused : Prop :=
  ∀ s : State, s.cfg.wellFormed = false → step s = .refused .illFormedConfig

/-- R61 (the spec's decision D17; the bookkeeping is the model's, notes/assumptions/4.md): an internal line that
is not the step the key event takes there is refused. -/
def Obligations.StrayInternalLineRefused : Prop :=
  ∀ (s : State) (e : Entry) (rest : List Entry) (i : Instr),
    s.cfg.wellFormed = true → s.started = true → s.trace = e :: rest → decode e = .ok i →
      (∀ p k, i.setkeyOperands = some (p, k) → s.line ≠ .setkey p k →
        step s = .refused .notAStepOfTheKeyEvent) ∧
      (∀ c v, i = .slotwr c v → s.due ≠ some ⟨c, v⟩ → step s = .refused .notAStepOfTheKeyEvent)

/-! ## The tables -/

/-- R64: above `0x52` every keycode is unmapped, in any configuration. -/
def Obligations.KeycodesAboveTheTableAreUnmapped : Prop :=
  ∀ (cfg : Config) (h : Byte), 0x52 < h.toNat → cfg.klookup h = 0xFF#8

/-- R65 to R68, R70, R71: what the lookups of a well-formed configuration answer. (Which indices K3, R66, forces
to no mapping is by the numbers of R72, which are not the source's, notes/assumptions/2.md.) -/
def Obligations.WellFormedTablesAnswerKeys : Prop :=
  ∀ cfg : Config, cfg.wellFormed = true →
    (∀ h, classify (cfg.klookup h) ≠ .reserved) ∧
    (∀ h : Byte, h.toNat ≤ 0x03 ∨ (0x29 ≤ h.toNat ∧ h.toNat ≤ 0x2B) ∨ (0x39 ≤ h.toNat ∧ h.toNat ≤ 0x4E) →
      cfg.klookup h = 0xFF#8) ∧
    (∃ c r, classify (cfg.klookup 0x04#8) = .key .none c r) ∧
    (∃ c r, classify (cfg.klookup 0x2D#8) = .key .shift c r) ∧
    (∀ key, ∃ c r, classify (cfg.mlookup key) = .key .none c r) ∧
    (∀ a b, classify (cfg.mlookup a) = classify (cfg.mlookup b) → a = b) ∧
    (∀ h m c r key cm rm, classify (cfg.klookup h) = .key m c r → m.key? = some key →
      classify (cfg.mlookup key) = .key .none cm rm → cm ≠ c)

/-! ## Key events -/

/-- R109: a press or a release of an unmapped key changes nothing. -/
def Obligations.UnmappedKeyIsANoOp : Prop :=
  ∀ (s : State) (h : Byte), s.cfg.klookup h = 0xFF#8 → s.pend = none → stepsShown s.trace = false →
    exec (.keydn h) s = .next { s with line := .none } ∧ exec (.keyup h) s = .next { s with line := .none } ∧
    (s.line = .none → exec (.keydn h) s = .next s ∧ exec (.keyup h) s = .next s)

/-- R73, R75, R76: a press is `SETKEY(1, KLOOKUP(h))`. For an unchorded key it records the row in the key's
column, and nothing else changes; for a chorded key it writes the modifier key's slot, then the key's (the order
is the spec's decision D8, notes/assumptions/11.md). -/
def Obligations.KeydnRecordsTheKey : Prop :=
  ∀ (s : State) (h : Byte), s.pend = none → stepsShown s.trace = false →
    exec (.keydn h) s = exec (.setkey true (s.cfg.klookup h)) { s with line := .none } ∧
    (s.cfg.klookup h = 0xFF#8 → exec (.keydn h) s = .next { s with line := .none }) ∧
    ∀ (m : Modifier) (c : Column) (r : Row), classify (s.cfg.klookup h) = .key m c r →
      (m = .none →
        exec (.keydn h) s = .next { s with line := .none, ks := s.ks.set c.val (.rowval r) c.isLt }) ∧
      (∀ key cm, m.key? = some key → columnOfBits (kColumn (s.cfg.mlookup key)) = some cm →
        exec (.keydn h) s =
          .next { s with
            line := .none
            ks := (s.ks.set cm.val (.rowval (kRow (s.cfg.mlookup key))) cm.isLt).set c.val (.rowval r) c.isLt })

/-- R74, R76, R78: a release is `SETKEY(0, KLOOKUP(h))`. It clears the key's slot, and the modifier key's slot
of a chorded key, whatever the slots held (the unconditional clearing is the spec's decision D7,
notes/assumptions/10.md); nothing else changes. -/
def Obligations.KeyupClearsTheKey : Prop :=
  ∀ (s : State) (h : Byte), s.pend = none → stepsShown s.trace = false →
    exec (.keyup h) s = exec (.setkey false (s.cfg.klookup h)) { s with line := .none } ∧
    (s.cfg.klookup h = 0xFF#8 → exec (.keyup h) s = .next { s with line := .none }) ∧
    ∀ (m : Modifier) (c : Column) (r : Row), classify (s.cfg.klookup h) = .key m c r →
      (m = .none →
        exec (.keyup h) s = .next { s with line := .none, ks := s.ks.set c.val .idle c.isLt }) ∧
      (∀ key cm, m.key? = some key → columnOfBits (kColumn (s.cfg.mlookup key)) = some cm →
        exec (.keyup h) s =
          .next { s with line := .none, ks := (s.ks.set cm.val .idle cm.isLt).set c.val .idle c.isLt })

/-- R85: a key event completes in every state, for every keycode. -/
def Obligations.KeyEventsAlwaysComplete : Prop :=
  ∀ (s : State) (h : Byte), s.cfg.wellFormed = true →
    (∃ t, exec (.keydn h) s = .next t) ∧ ∃ t, exec (.keyup h) s = .next t

/-- The frame of a key event in every form it has (whole or written out): the tables, the rows, the responder,
the pending write, the line set-up and the events to arrive are as they were, and so is every slot but those the
key and its modifier name. -/
def Obligations.KeyEventFrame : Prop :=
  ∀ (s t : State) (h : Byte) (p : Bool), exec (if p then .keydn h else .keyup h) s = .next t →
    t.cfg = s.cfg ∧ t.row = s.row ∧ t.rs = s.rs ∧ t.pend = s.pend ∧ t.started = s.started ∧ t.dirs = s.dirs ∧
    t.edgeReg = s.edgeReg ∧ t.trace = s.trace ∧
    ∀ c : Column,
      (∀ m ck r, classify (s.cfg.klookup h) = .key m ck r →
        c ≠ ck ∧ ∀ key, m.key? = some key → columnOfBits (kColumn (s.cfg.mlookup key)) ≠ some c) →
      t.slot c = s.slot c

/-- R24 (the spec's decision D15), U13, R61: while a key event is under way (a line of it is due, or its second
write is pending) a step refuses another key event, and goes on only with a scan event, `RESET`, or the very
line due. (The line due is the model's bookkeeping, notes/assumptions/4.md and 6.md.) -/
def Obligations.NoKeyEventInsideAnother : Prop :=
  ∀ (s : State) (e : Entry) (rest : List Entry) (i : Instr),
    s.cfg.wellFormed = true → s.started = true → s.trace = e :: rest → decode e = .ok i →
    (s.line ≠ .none ∨ s.pend ≠ none) →
      (∀ h, i = .keydn h ∨ i = .keyup h → step s = .refused .keyEventUnfinished) ∧
      (∀ t, step s = .next t →
        i = .reset ∨ (∃ lv, i = .poll lv) ∨ (∃ id, i = .edge id) ∨
        (∃ w, s.due = some w ∧ i = .slotwr w.col w.val) ∨
        ∃ p k, i.setkeyOperands = some (p, k) ∧ s.line = .setkey p k)

/-- R61 (notes/assumptions/3.md and 4.md): a key event whose steps are written out only opens its `SETKEY` line,
with the code the Keycode Table gives. -/
def Obligations.WrittenOutKeyEventOpensItsSetkey : Prop :=
  ∀ (s : State) (h : Byte), stepsShown s.trace = true →
    exec (.keydn h) s = .next { s with line := .setkey true (s.cfg.klookup h) } ∧
    exec (.keyup h) s = .next { s with line := .setkey false (s.cfg.klookup h) }

/-- R80: pressing twice, or releasing twice, leaves the store of once. -/
def Obligations.KeyEventsAreIdempotent : Prop :=
  ∀ (s : State) (h : Byte), s.cfg.wellFormed = true → s.pend = none → stepsShown s.trace = false →
    (∃ t u, exec (.keydn h) s = .next t ∧ exec (.keydn h) t = .next u ∧ u.ks = t.ks) ∧
    (∃ t u, exec (.keyup h) s = .next t ∧ exec (.keyup h) t = .next u ∧ u.ks = t.ks)

/-- R81 (and R133): a second press in a column overwrites the first, whichever of the two wrote the shared slot as
its own or as its modifier key's. -/
def Obligations.LaterPressOverwrites : Prop :=
  ∀ (s : State) (h1 h2 : Byte) (m1 m2 : Modifier) (c1 c2 : Column) (r1 r2 : Row),
    s.cfg.wellFormed = true → s.pend = none → stepsShown s.trace = false →
    classify (s.cfg.klookup h1) = .key m1 c1 r1 → classify (s.cfg.klookup h2) = .key m2 c2 r2 →
      ∃ t u, exec (.keydn h1) s = .next t ∧ exec (.keydn h2) t = .next u ∧ t.slot c1 = .rowval r1 ∧
        (c1 = c2 → u.slot c1 = .rowval r2) ∧
        (∀ key rm, m2.key? = some key → classify (s.cfg.mlookup key) = .key .none c1 rm →
          u.slot c1 = .rowval rm) ∧
        (∀ key rm, m1.key? = some key → classify (s.cfg.mlookup key) = .key .none c2 rm →
          t.slot c2 = .rowval rm ∧ u.slot c2 = .rowval r2) ∧
        ∀ key1 key2 cm rm1 rm2, m1.key? = some key1 → m2.key? = some key2 →
          classify (s.cfg.mlookup key1) = .key .none cm rm1 → classify (s.cfg.mlookup key2) = .key .none cm rm2 →
            t.slot cm = .rowval rm1 ∧ u.slot cm = .rowval rm2

/-- R82 (derived in the spec): a release clears its column although another key of the column was pressed after it. -/
def Obligations.ReleaseIsBlind : Prop :=
  ∀ (s : State) (h1 h2 : Byte) (m1 m2 : Modifier) (c : Column) (r1 r2 : Row),
    s.cfg.wellFormed = true → s.pend = none → stepsShown s.trace = false →
    classify (s.cfg.klookup h1) = .key m1 c r1 → classify (s.cfg.klookup h2) = .key m2 c r2 →
      ∃ t u v, exec (.keydn h1) s = .next t ∧ exec (.keydn h2) t = .next u ∧ exec (.keyup h1) u = .next v ∧
        u.slot c = .rowval r2 ∧ v.slot c = .idle

/-- R132 (hazard H-3, derived in the spec from decision D7): of two held keys chorded with one modifier, releasing one takes the modifier from the
other, whose own slot stays. -/
def Obligations.ChordedReleaseTakesTheModifier : Prop :=
  ∀ (s : State) (h1 h2 : Byte) (m : Modifier) (key : ModKey) (c1 c2 cm : Column) (r1 r2 rm : Row),
    s.cfg.wellFormed = true → s.pend = none → stepsShown s.trace = false →
    classify (s.cfg.klookup h1) = .key m c1 r1 → classify (s.cfg.klookup h2) = .key m c2 r2 → c1 ≠ c2 →
    m.key? = some key → classify (s.cfg.mlookup key) = .key .none cm rm →
      ∃ t u v, exec (.keydn h1) s = .next t ∧ exec (.keydn h2) t = .next u ∧ exec (.keyup h1) u = .next v ∧
        u.slot cm = .rowval rm ∧ v.slot cm = .idle ∧ v.slot c1 = .idle ∧ v.slot c2 = .rowval r2

/-- R83 (derived in the spec): the two writes of a chord give the same store in either order. -/
def Obligations.ChordWritesCommute : Prop :=
  ∀ (s : State) (h : Byte) (m : Modifier) (key : ModKey) (c cm : Column) (r rm : Row) (v vm : Slot),
    s.cfg.wellFormed = true → s.pend = none → s.line = .none → classify (s.cfg.klookup h) = .key m c r →
    m.key? = some key → classify (s.cfg.mlookup key) = .key .none cm rm →
      ∃ a b t u, exec (.slotwr cm vm) s = .next a ∧ exec (.slotwr c v) a = .next t ∧
        exec (.slotwr c v) s = .next b ∧ exec (.slotwr cm vm) b = .next u ∧ t = u

/-! ## Internal operations -/

/-- R58, R75: `SETKEY` of `NOMAP` is a no-op, and so is the `PK.NOMAP` row; all that ends is the line it was.
(That the row is taken as such a call is the model's choice, notes/assumptions/8.md.) -/
def Obligations.SetkeyOfNoMapping : Prop :=
  ∀ (s : State) (p : Bool),
    exec (.setkey p 0xFF#8) s = .next { s with line := .none } ∧
    exec (.pkNomap p) s = .next { s with line := .none }

/-- R75, R76 (the order is the spec's decision D8): a `SETKEY` that is not a line of a written-out key event
performs its writes: the key's slot, after the modifier key's slot for a chorded code. -/
def Obligations.SetkeyPerformsItsWrites : Prop :=
  ∀ (s : State) (p : Bool) (k : Byte) (m : Modifier) (c : Column) (r : Row),
    classify k = .key m c r → s.line ≠ .setkey p k →
      (m = .none →
        exec (.setkey p k) s =
          .next { s with line := .none, ks := s.ks.set c.val (if p then .rowval r else .idle) c.isLt }) ∧
      (∀ key cm, m.key? = some key → columnOfBits (kColumn (s.cfg.mlookup key)) = some cm →
        exec (.setkey p k) s =
          .next { s with
            line := .none
            ks := (s.ks.set cm.val (if p then .rowval (kRow (s.cfg.mlookup key)) else .idle) cm.isLt).set
              c.val (if p then .rowval r else .idle) c.isLt })

/-- R61, R76 (notes/assumptions/3.md and 4.md): the `SETKEY` line of a written-out key event opens its first write,
which must follow as a line, and keeps the second of a chord for after it. -/
def Obligations.WrittenOutSetkeyOpensItsWrites : Prop :=
  ∀ (s : State) (p : Bool) (k : Byte) (m : Modifier) (c : Column) (r : Row),
    classify k = .key m c r → s.line = .setkey p k →
      (m = .none →
        exec (.setkey p k) s = .next { s with line := .write ⟨c, if p then .rowval r else .idle⟩ none }) ∧
      (∀ key cm, m.key? = some key → columnOfBits (kColumn (s.cfg.mlookup key)) = some cm →
        exec (.setkey p k) s =
          .next { s with
            line := .write ⟨cm, if p then .rowval (kRow (s.cfg.mlookup key)) else .idle⟩
              (some ⟨c, if p then .rowval r else .idle⟩) })

/-- R53, R75: a reserved code is refused, as the operand of `SETKEY` and as the `PK.RESERVED` row. -/
def Obligations.ReservedKeycodeRefused : Prop :=
  (∀ (s : State) (p : Bool) (k : Byte), k.extractLsb' 3 3 = 7#3 → k ≠ 0xFF#8 →
    exec (.setkey p k) s = .refused (.reservedKeycode k)) ∧
  ∀ (s : State) (p : Bool) (m : Modifier) (r : Row),
    exec (.pkReserved p m r) s = .refused (.reservedKeycode (m.bits ++ 7#3 ++ BitVec.ofNat 3 r.val))

/-- R53, R76: each packed-keycode row but `PK.RESERVED` is the `SETKEY` of its byte, in every state; as a whole call
it performs one write for `PK.NONE`, and for `PK.CTRL`, `PK.FCTN` and `PK.SHIFT` the write of that modifier key
first. (That the rows are taken as such calls is the model's choice, notes/assumptions/8.md; the order is the
spec's decision D8.) -/
def Obligations.PackedRowsPerformTheirWrites : Prop :=
  ∀ (s : State) (p : Bool) (c : Column) (r : Row),
    (∀ (i : Instr) (k : Byte),
      i = .pkNomap p ∨ i = .pkNone p c r ∨ i = .pkCtrl p c r ∨ i = .pkFctn p c r ∨ i = .pkShift p c r →
      i.setkeyOperands = some (p, k) → exec i s = exec (.setkey p k) s) ∧
    ((∀ k, s.line ≠ .setkey p k) →
      exec (.pkNone p c r) s =
        .next { s with line := .none, ks := s.ks.set c.val (if p then .rowval r else .idle) c.isLt } ∧
      ∀ (key : ModKey) (cm : Column), columnOfBits (kColumn (s.cfg.mlookup key)) = some cm →
        exec (match key with | .ctrl => .pkCtrl p c r | .fctn => .pkFctn p c r | .shift => .pkShift p c r) s =
          .next { s with
            line := .none
            ks := (s.ks.set cm.val (if p then .rowval (kRow (s.cfg.mlookup key)) else .idle) cm.isLt).set
              c.val (if p then .rowval r else .idle) c.isLt })

/-- R77: `SLOTWR` writes its slot in every state, whatever the slot held. What else it may touch is the
translator's note of the write (R24): a write that is not due leaves it, `PEND` is done when it is
performed, and after the first write of a written-out chord the second is `PEND`. -/
def Obligations.SlotwrWritesItsSlot : Prop :=
  ∀ (s : State) (c : Column) (v : Slot),
    (s.due ≠ some ⟨c, v⟩ → exec (.slotwr c v) s = .next { s with ks := s.ks.set c.val v c.isLt }) ∧
    (s.line = .none → s.pend = some ⟨c, v⟩ →
      exec (.slotwr c v) s = .next { s with ks := s.ks.set c.val v c.isLt, pend := none }) ∧
    (∀ after, s.line = .write ⟨c, v⟩ after →
      exec (.slotwr c v) s =
        .next { s with ks := s.ks.set c.val v c.isLt, line := .none, pend := after })

/-- R18: a write to `KS[c]` changes no slot other than `c`. -/
def Obligations.SlotsAreIndependent : Prop :=
  ∀ (s : State) (c : Column) (v : Slot), ∃ t, exec (.slotwr c v) s = .next t ∧ t.slot c = v ∧
    ∀ c', c' ≠ c → t.slot c' = s.slot c'

/-- R24 (the spec's decision D15): a write becomes pending only with the first `SLOTWR` of a written-out chord. -/
def Obligations.PendingOnlyInsideAChord : Prop :=
  ∀ (i : Instr) (s t : State) (w : Write), exec i s = .next t → s.pend = none → t.pend = some w →
    ∃ c v, i = .slotwr c v ∧ s.line = .write ⟨c, v⟩ (some w)

/-! ## Scans -/

/-- R86: row `r` of `ROWSEL` is closed exactly when a scanned column records row `r`. -/
def Obligations.RowselIsTheUnionOfScannedRows : Prop :=
  ∀ (mask : Levels) (ks : Vector Slot 7) (r : Row),
    (rowsel mask ks).getLsbD r.val = true ↔ ∃ c : Column, mask.getLsbD c.val = true ∧ ks[c.val] = .rowval r

/-- R87: `POLL` completes in every state of a poll instance; it closes exactly the rows recorded for the
columns read low, and changes nothing else. -/
def Obligations.PollClosesTheScannedRows : Prop :=
  ∀ (s : State) (lv : Levels), s.cfg.variant = .poll →
    ∃ w : RowVec, exec (.poll lv) s = .next { s with row := w } ∧
      (∀ r : Row, w.getLsbD r.val = true ↔ ∃ c : Column, lv.getLsbD c.val = false ∧ s.slot c = .rowval r) ∧
      (lv = 0b1111111#7 → w = 0#8)

/-- R95: `EDGE` of a column line closes the row its slot records, or none, puts every other row at rest, and
changes nothing else; `EDGE` of any other line leaves all of it. The responder is idle after either. -/
def Obligations.EdgeClosesTheColumnsRow : Prop :=
  ∀ (s : State) (c : Column), s.cfg.wellFormed = true → s.cfg.variant = .irq →
    exec (.edge (s.cfg.columnLine c)) s =
      .next { s with
        row := (match s.slot c with | .idle => 0#8 | .rowval r => 1#8 <<< r.val)
        rs := .idle } ∧
    ∀ id, (∀ c', s.cfg.columnLine c' ≠ id) → exec (.edge id) s = .next { s with rs := .idle }

/-- R97: `EDGE` of any line that is no column line changes nothing. -/
def Obligations.EdgeOfUnknownLineIsANoOp : Prop :=
  ∀ (s : State) (id : LineId), s.cfg.variant = .irq → (∀ c, s.cfg.columnLine c ≠ id) →
    exec (.edge id) s = .next { s with rs := .idle } ∧ (s.rs = .idle → exec (.edge id) s = .next s)

/-- R94: `COLFIND` answers the column whose line it is given, and `NOTFOUND` for every other line, a row
line among them. -/
def Obligations.ColfindIsTheInverseOfTheGeometry : Prop :=
  ∀ cfg : Config, cfg.wellFormed = true →
    (∀ id c, cfg.colfind id = some c ↔ cfg.columnLine c = id) ∧
    (∀ id, cfg.colfind id = none ↔ ∀ c, cfg.columnLine c ≠ id) ∧
    ∀ r, cfg.colfind (cfg.rowLineOf r) = none

/-- R62 (the spec's decision D18): the other variant's operation is refused. -/
def Obligations.AbsentVariantRefused : Prop :=
  ∀ s : State,
    (∀ lv, s.cfg.variant = .irq → exec (.poll lv) s = .refused (.absentVariant .irq)) ∧
    (∀ id, s.cfg.variant = .poll → exec (.edge id) s = .refused (.absentVariant .poll))

/-- R99 (derived in the spec): for every store and every column, scanning the column alone leaves the same rows in a poll instance
and in an interrupt instance, namely the row the column's slot records; both leave the store. -/
def Obligations.VariantsAgreeOnAScannedColumn : Prop :=
  ∀ (s : State) (c : Column), s.cfg.wellFormed = true →
    ∃ t u, exec (.poll (0b1111111#7 ^^^ onehot7 c)) { s with cfg := { s.cfg with variant := .poll } } = .next t ∧
      exec (.edge (s.cfg.columnLine c)) { s with cfg := { s.cfg with variant := .irq } } = .next u ∧
      t.row = u.row ∧ (∀ r : Row, t.row.getLsbD r.val = true ↔ s.slot c = .rowval r) ∧
      t.ks = s.ks ∧ u.ks = s.ks

/-- R61: the pseudo-operation `SCAN c` is one operation in either variant, with the same effect on the rows;
`SCANNONE` is `POLL 0b1111111`, which puts every row at rest, in a poll instance and is not defined in an
interrupt instance; and `TAP` of a mapped key leaves its slot idle. -/
def Obligations.PseudoOperationsExpand : Prop :=
  ∀ s : State, s.cfg.wellFormed = true →
    (∀ c, ∃ i t, (Pseudo.scan c).expansion s.cfg = some [i] ∧ exec i s = .next t ∧
      ∀ r : Row, t.row.getLsbD r.val = true ↔ s.slot c = .rowval r) ∧
    (s.cfg.variant = .poll →
      Pseudo.scanNone.expansion s.cfg = some [.poll 0b1111111#7] ∧
      exec (.poll 0b1111111#7) s = .next { s with row := 0#8 }) ∧
    (s.cfg.variant = .irq → Pseudo.scanNone.expansion s.cfg = none) ∧
    (∀ h m c r, classify (s.cfg.klookup h) = .key m c r → s.pend = none → stepsShown s.trace = false →
      ∃ i j t u, (Pseudo.tap h).expansion s.cfg = some [i, j] ∧ exec i s = .next t ∧ exec j t = .next u ∧
        t.slot c = .rowval r ∧ u.slot c = .idle)

/-- R100: the responder only drives rows: neither scan event writes the store or anything else but the
row latch and, in passing, the responder state. -/
def Obligations.ResponderOnlyDrivesRows : Prop :=
  ∀ (s t : State) (i : Instr), ((∃ lv, i = .poll lv) ∨ ∃ id, i = .edge id) → exec i s = .next t →
    t.ks = s.ks ∧ t.pend = s.pend ∧ t.line = s.line ∧ t.started = s.started ∧ t.dirs = s.dirs ∧
    t.edgeReg = s.edgeReg ∧ t.trace = s.trace ∧ t.cfg = s.cfg ∧ (t.rs = s.rs ∨ t.rs = .idle)

/-- R98 (derived in the spec): between recognised edges the rows hold: in an interrupt instance every step but `RESET` and a
recognised `EDGE` leaves the row latch. -/
def Obligations.RowsHoldBetweenEdges : Prop :=
  ∀ (s t : State) (e : Entry) (rest : List Entry) (i : Instr), s.cfg.variant = .irq → s.trace = e :: rest →
    decode e = .ok i → i ≠ .reset → (∀ c, i ≠ .edge (s.cfg.columnLine c)) → step s = .next t → t.row = s.row

/-- R19, R36, R39 (the spec's decision D11): the block drives the line of row `r` low when the row is closed and high when it is at
rest, and drives no column line. -/
def Obligations.RowLinesCarryTheLatch : Prop :=
  ∀ s : State, s.cfg.wellFormed = true →
    (∀ r : Row, lineLevel s (s.cfg.rowLineOf r) = some (if s.row.getLsbD r.val then .low else .high)) ∧
    ∀ c : Column, lineLevel s (s.cfg.columnLine c) = none

/-- R38, R55: the levels read from the 7 column lines, bit for bit. -/
def Obligations.SampledLevelsAreTheColumnLevels : Prop :=
  ∀ (cfg : Config) (readLine : LineId → Level) (c : Column),
    (sampleColumns cfg readLine).getLsbD c.val = true ↔ readLine (cfg.columnLine c) = .high

/-- R67, R87 (the source's scenario S6): pressing A from a store with nothing recorded and scanning one
column closes A's row when it is A's column, and no row otherwise. -/
def Obligations.PressedLetterShowsInItsColumn : Prop :=
  ∀ (s : State) (c : Column) (r : Row), s.cfg.wellFormed = true → s.cfg.variant = .poll → s.pend = none →
    stepsShown s.trace = false → (∀ c', s.slot c' = .idle) → classify (s.cfg.klookup 0x04#8) = .key .none c r →
      ∃ t, exec (.keydn 0x04#8) s = .next t ∧ t.row = s.row ∧
        ∀ c', ∃ u, exec (.poll (scanLevels c')) t = .next u ∧
          ∀ r', u.row.getLsbD r'.val = true ↔ c' = c ∧ r' = r

/-! ## Whole-machine rules -/

/-- R19, R136: only `RESET` and the scan events write the row latch; a key event shows at the next scan. -/
def Obligations.OnlyScansAndResetWriteTheRows : Prop :=
  ∀ (i : Instr) (s t : State), exec i s = .next t → mayWriteRows i = false → t.row = s.row

/-- R33: no operation and no step changes the tables, the geometry or the variant. -/
def Obligations.ConstantSpacesNeverChange : Prop :=
  (∀ (i : Instr) (s t : State), exec i s = .next t → t.cfg = s.cfg) ∧
  ∀ s t : State, step s = .next t → t.cfg = s.cfg

/-- R103, R104, R112: no operation but the first `RESET` changes what the line set-up left. -/
def Obligations.LineSetUpStands : Prop :=
  ∀ (i : Instr) (s t : State), exec i s = .next t → i ≠ .reset →
    t.dirs = s.dirs ∧ t.edgeReg = s.edgeReg ∧ t.started = s.started

/-- R109, R110: condition (a) arises exactly in a key event of an unmapped key, condition (b) exactly in `EDGE` of
a line that is no column line, in an interrupt instance only; an operation that meets either changes nothing. -/
def Obligations.ConditionsAreNoOps : Prop :=
  ∀ (i : Instr) (s : State),
    (condition i s = some .unmappedKey ↔ ∃ h, (i = .keydn h ∨ i = .keyup h) ∧ s.cfg.klookup h = 0xFF#8) ∧
    (condition i s = some .unrecognizedLine ↔
      s.cfg.variant = .irq ∧ ∃ id, i = .edge id ∧ ∀ c, s.cfg.columnLine c ≠ id) ∧
    (s.pend = none → s.line = .none → s.rs = .idle → stepsShown s.trace = false →
      (condition i s = some .unmappedKey ∨ condition i s = some .unrecognizedLine) → exec i s = .next s)

/-- The reset state, and the state the first `RESET` leaves in any well-formed configuration, meet the
invariant. -/
def Obligations.ResetMeetsTheInvariant : Prop :=
  State.reset.Inv ∧
  ∀ (cfg : Config) (es : List Entry), cfg.wellFormed = true →
    ∃ t, exec .reset (State.beforeReset cfg es) = .next t ∧ t.Inv

/-- R20, R24, R33, R71, R103 (the invariant is the model's collection of these rules): the invariant of a run is kept by every step, from every state that meets it. -/
def Obligations.EveryStepKeepsTheInvariant : Prop :=
  ∀ s t : State, s.Inv → step s = .next t → t.Inv

/-- R53, R75, R111: from every state that meets the invariant, no step meets a malformed keycode: the only
codes a step works on come from the tables. -/
def Obligations.MalformedKeycodeIsUnreachable : Prop :=
  ∀ (s : State) (k : Byte), s.Inv → step s ≠ .refused (.reservedKeycode k)

/-- R85, R106, R108, R140: a run of port events, `RESET` first and scan events of the instance's own variant,
is never refused: it runs to its last event in any well-formed configuration. -/
def Obligations.EveryRunOfPortEventsCompletes : Prop :=
  ∀ (cfg : Config) (is : List Instr), cfg.wellFormed = true →
    (∀ i ∈ is, i = .reset ∨ (∃ h, i = .keydn h) ∨ (∃ h, i = .keyup h) ∨
      (cfg.variant = .poll ∧ ∃ lv, i = .poll lv) ∨ (cfg.variant = .irq ∧ ∃ id, i = .edge id)) →
    ∃ t, Host.Core.run Sys2Proof.core (is.length + 1)
        (State.beforeReset cfg (encode .reset :: is.map encode)) = .next t ∧
      t.trace = [] ∧ t.pend = none ∧ t.started = true ∧ t.cfg = cfg

/-- R43 point 4, R79, R83, R119 (the spec's decision D15; how a trace writes it out, notes/assumptions/3.md): a
chorded key event written out with any scans of the instance's variant between its lines, before its `SETKEY` too,
ends with the store of the event run as a whole; between the writes the modifier key's slot is written, the
primary key's is not, and its write is pending. -/
def Obligations.ScansInsideAChord : Prop :=
  ∀ (s : State) (h : Byte) (p : Bool) (m : Modifier) (key : ModKey) (c cm : Column) (r rm : Row)
    (xs ys zs : List Instr) (rest : List Entry),
    s.cfg.wellFormed = true → s.started = true → s.pend = none → s.line = .none →
    classify (s.cfg.klookup h) = .key m c r → m.key? = some key → classify (s.cfg.mlookup key) = .key .none cm rm →
    (∀ i ∈ xs ++ ys ++ zs,
      (s.cfg.variant = .poll ∧ ∃ lv, i = .poll lv) ∨ (s.cfg.variant = .irq ∧ ∃ id, i = .edge id)) →
    s.trace =
      encode (if p then .keydn h else .keyup h) ::
        (xs.map encode ++ encode (.setkey p (s.cfg.klookup h)) ::
          (ys.map encode ++ encode (.slotwr cm (if p then .rowval rm else .idle)) ::
            (zs.map encode ++ encode (.slotwr c (if p then .rowval r else .idle)) :: rest))) →
      (∃ u, Host.Core.run Sys2Proof.core (3 + xs.length + ys.length + zs.length) s = .next u ∧
        u.ks = s.ks.set cm.val (if p then .rowval rm else .idle) cm.isLt ∧
        u.pend = some ⟨c, if p then .rowval r else .idle⟩) ∧
      ∃ t v, Host.Core.run Sys2Proof.core (4 + xs.length + ys.length + zs.length) s = .next t ∧
        exec (if p then .keydn h else .keyup h) { s with trace := [] } = .next v ∧
        t.ks = v.ks ∧ t.pend = none ∧ t.line = .none ∧ t.trace = rest
end

