-- ==== Sys2Proof/Laws/Encoding.lean ====
section
/-! SUPPORT. Each field read back from the word it was written into. -/

namespace Sys2Proof

@[simp] theorem Modifier.ofBits_bits (m : Modifier) : Modifier.ofBits m.bits = m := by cases m <;> rfl

@[simp] theorem columnOfBits_columnBits (c : Column) : columnOfBits (columnBits c) = some c := by
  revert c; decide

theorem columnBits_of_columnOfBits {b : BitVec 3} {c : Column} (h : columnOfBits b = some c) : columnBits c = b := by
  revert b c; decide

@[simp] theorem columnOfBits_seven : columnOfBits 7#3 = none := by decide

/-- Only the field 7 names no column (R42). -/
theorem columnOfBits_eq_none {b : BitVec 3} : columnOfBits b = none ↔ b = 7#3 := by revert b; decide

@[simp] theorem rowOfBits_rowBits (r : Row) : rowOfBits (rowBits r) = r := by revert r; decide

@[simp] theorem rowBits_rowOfBits (b : BitVec 3) : rowBits (rowOfBits b) = b := by revert b; decide

@[simp] theorem Slot.ofBits_bits (v : Slot) : Slot.ofBits v.bits = some v := by
  cases v with
  | idle => decide
  | rowval r => revert r; decide

theorem Modifier.bits_ofBits (b : BitVec 2) : (Modifier.ofBits b).bits = b := by revert b; decide

/-! ## The fields of a packed byte -/

@[simp] theorem kModifier_packByte (m : Modifier) (b : BitVec 3) (r : Row) : kModifier (packByte m b r) = m := by
  cases m <;> (revert b r; decide)

@[simp] theorem kColumn_packByte (m : Modifier) (b : BitVec 3) (r : Row) : kColumn (packByte m b r) = b := by
  cases m <;> (revert b r; decide)

@[simp] theorem kRow_packByte (m : Modifier) (b : BitVec 3) (r : Row) : kRow (packByte m b r) = r := by
  cases m <;> (revert b r; decide)

/-- A packed byte of a column is the key of its fields (R51, R53). -/
@[simp] theorem classify_packByte (m : Modifier) (c : Column) (r : Row) :
    classify (packByte m (columnBits c) r) = .key m c r := by
  cases m <;> (revert c r; decide)

/-- A byte is the packing of its three fields (R49). -/
theorem packByte_fields (k : Byte) : packByte (kModifier k) (kColumn k) (kRow k) = k := by
  revert k; decide

@[simp] theorem classify_nomapByte : classify nomapByte = .nomap := by decide

/-- The class of a byte, by its fields (R52, R53). -/
theorem classify_eq_nomap {k : Byte} : classify k = .nomap ↔ k = nomapByte := by
  unfold classify
  split
  · simp_all
  · split <;> simp_all

theorem classify_eq_reserved {k : Byte} : classify k = .reserved ↔ kColumn k = 7#3 ∧ k ≠ nomapByte := by
  unfold classify
  split
  · simp_all
  · split
    · simp_all [columnOfBits_eq_none]
    · next h => simp_all [← columnOfBits_eq_none]

theorem classify_eq_key {k : Byte} {m : Modifier} {c : Column} {r : Row} :
    classify k = .key m c r ↔ k = packByte m (columnBits c) r := by
  constructor
  · intro h
    unfold classify at h
    split at h
    · cases h
    · split at h
      · cases h
      · next hc =>
        injection h with hm hcc hr
        subst hm hcc hr
        rw [columnBits_of_columnOfBits hc, packByte_fields]
  · rintro rfl
    exact classify_packByte m c r

end Sys2Proof
end

