-- ==== Sys2Proof/Laws/State.lean ====
section
/-! SUPPORT. One lemma per field per named update of the state, so that no proof unfolds a record update. -/

namespace Sys2Proof.Machine

/-! `putSlot` -/

@[simp] theorem State.putSlot_cfg (c : Column) (v : Slot) (s : State) : (s.putSlot c v).cfg = s.cfg := rfl
@[simp] theorem State.putSlot_ks (c : Column) (v : Slot) (s : State) : (s.putSlot c v).ks = s.ks.set c.val v c.isLt := rfl
@[simp] theorem State.putSlot_row (c : Column) (v : Slot) (s : State) : (s.putSlot c v).row = s.row := rfl
@[simp] theorem State.putSlot_rs (c : Column) (v : Slot) (s : State) : (s.putSlot c v).rs = s.rs := rfl
@[simp] theorem State.putSlot_pend (c : Column) (v : Slot) (s : State) : (s.putSlot c v).pend = s.pend := rfl
@[simp] theorem State.putSlot_line (c : Column) (v : Slot) (s : State) : (s.putSlot c v).line = s.line := rfl
@[simp] theorem State.putSlot_started (c : Column) (v : Slot) (s : State) : (s.putSlot c v).started = s.started := rfl
@[simp] theorem State.putSlot_dirs (c : Column) (v : Slot) (s : State) : (s.putSlot c v).dirs = s.dirs := rfl
@[simp] theorem State.putSlot_edgeReg (c : Column) (v : Slot) (s : State) : (s.putSlot c v).edgeReg = s.edgeReg := rfl
@[simp] theorem State.putSlot_trace (c : Column) (v : Slot) (s : State) : (s.putSlot c v).trace = s.trace := rfl

/-! `driveRows` -/

@[simp] theorem State.driveRows_cfg (w : RowVec) (s : State) : (s.driveRows w).cfg = s.cfg := rfl
@[simp] theorem State.driveRows_ks (w : RowVec) (s : State) : (s.driveRows w).ks = s.ks := rfl
@[simp] theorem State.driveRows_row (w : RowVec) (s : State) : (s.driveRows w).row = w := rfl
@[simp] theorem State.driveRows_rs (w : RowVec) (s : State) : (s.driveRows w).rs = s.rs := rfl
@[simp] theorem State.driveRows_pend (w : RowVec) (s : State) : (s.driveRows w).pend = s.pend := rfl
@[simp] theorem State.driveRows_line (w : RowVec) (s : State) : (s.driveRows w).line = s.line := rfl
@[simp] theorem State.driveRows_started (w : RowVec) (s : State) : (s.driveRows w).started = s.started := rfl
@[simp] theorem State.driveRows_dirs (w : RowVec) (s : State) : (s.driveRows w).dirs = s.dirs := rfl
@[simp] theorem State.driveRows_edgeReg (w : RowVec) (s : State) : (s.driveRows w).edgeReg = s.edgeReg := rfl
@[simp] theorem State.driveRows_trace (w : RowVec) (s : State) : (s.driveRows w).trace = s.trace := rfl

/-! `enterServicing` -/

@[simp] theorem State.enterServicing_cfg (s : State) : s.enterServicing.cfg = s.cfg := rfl
@[simp] theorem State.enterServicing_ks (s : State) : s.enterServicing.ks = s.ks := rfl
@[simp] theorem State.enterServicing_row (s : State) : s.enterServicing.row = s.row := rfl
@[simp] theorem State.enterServicing_rs (s : State) : s.enterServicing.rs = .servicing := rfl
@[simp] theorem State.enterServicing_pend (s : State) : s.enterServicing.pend = s.pend := rfl
@[simp] theorem State.enterServicing_line (s : State) : s.enterServicing.line = s.line := rfl
@[simp] theorem State.enterServicing_started (s : State) : s.enterServicing.started = s.started := rfl
@[simp] theorem State.enterServicing_dirs (s : State) : s.enterServicing.dirs = s.dirs := rfl
@[simp] theorem State.enterServicing_edgeReg (s : State) : s.enterServicing.edgeReg = s.edgeReg := rfl
@[simp] theorem State.enterServicing_trace (s : State) : s.enterServicing.trace = s.trace := rfl

/-! `leaveServicing` -/

@[simp] theorem State.leaveServicing_cfg (s : State) : s.leaveServicing.cfg = s.cfg := rfl
@[simp] theorem State.leaveServicing_ks (s : State) : s.leaveServicing.ks = s.ks := rfl
@[simp] theorem State.leaveServicing_row (s : State) : s.leaveServicing.row = s.row := rfl
@[simp] theorem State.leaveServicing_rs (s : State) : s.leaveServicing.rs = .idle := rfl
@[simp] theorem State.leaveServicing_pend (s : State) : s.leaveServicing.pend = s.pend := rfl
@[simp] theorem State.leaveServicing_line (s : State) : s.leaveServicing.line = s.line := rfl
@[simp] theorem State.leaveServicing_started (s : State) : s.leaveServicing.started = s.started := rfl
@[simp] theorem State.leaveServicing_dirs (s : State) : s.leaveServicing.dirs = s.dirs := rfl
@[simp] theorem State.leaveServicing_edgeReg (s : State) : s.leaveServicing.edgeReg = s.edgeReg := rfl
@[simp] theorem State.leaveServicing_trace (s : State) : s.leaveServicing.trace = s.trace := rfl

/-! `setPend` -/

@[simp] theorem State.setPend_cfg (w : Option Write) (s : State) : (s.setPend w).cfg = s.cfg := rfl
@[simp] theorem State.setPend_ks (w : Option Write) (s : State) : (s.setPend w).ks = s.ks := rfl
@[simp] theorem State.setPend_row (w : Option Write) (s : State) : (s.setPend w).row = s.row := rfl
@[simp] theorem State.setPend_rs (w : Option Write) (s : State) : (s.setPend w).rs = s.rs := rfl
@[simp] theorem State.setPend_pend (w : Option Write) (s : State) : (s.setPend w).pend = w := rfl
@[simp] theorem State.setPend_line (w : Option Write) (s : State) : (s.setPend w).line = s.line := rfl
@[simp] theorem State.setPend_started (w : Option Write) (s : State) : (s.setPend w).started = s.started := rfl
@[simp] theorem State.setPend_dirs (w : Option Write) (s : State) : (s.setPend w).dirs = s.dirs := rfl
@[simp] theorem State.setPend_edgeReg (w : Option Write) (s : State) : (s.setPend w).edgeReg = s.edgeReg := rfl
@[simp] theorem State.setPend_trace (w : Option Write) (s : State) : (s.setPend w).trace = s.trace := rfl

/-! `setLine` -/

@[simp] theorem State.setLine_cfg (l : ShownLine) (s : State) : (s.setLine l).cfg = s.cfg := rfl
@[simp] theorem State.setLine_ks (l : ShownLine) (s : State) : (s.setLine l).ks = s.ks := rfl
@[simp] theorem State.setLine_row (l : ShownLine) (s : State) : (s.setLine l).row = s.row := rfl
@[simp] theorem State.setLine_rs (l : ShownLine) (s : State) : (s.setLine l).rs = s.rs := rfl
@[simp] theorem State.setLine_pend (l : ShownLine) (s : State) : (s.setLine l).pend = s.pend := rfl
@[simp] theorem State.setLine_line (l : ShownLine) (s : State) : (s.setLine l).line = l := rfl
@[simp] theorem State.setLine_started (l : ShownLine) (s : State) : (s.setLine l).started = s.started := rfl
@[simp] theorem State.setLine_dirs (l : ShownLine) (s : State) : (s.setLine l).dirs = s.dirs := rfl
@[simp] theorem State.setLine_edgeReg (l : ShownLine) (s : State) : (s.setLine l).edgeReg = s.edgeReg := rfl
@[simp] theorem State.setLine_trace (l : ShownLine) (s : State) : (s.setLine l).trace = s.trace := rfl

/-! `setTrace` -/

@[simp] theorem State.setTrace_cfg (es : List Entry) (s : State) : (s.setTrace es).cfg = s.cfg := rfl
@[simp] theorem State.setTrace_ks (es : List Entry) (s : State) : (s.setTrace es).ks = s.ks := rfl
@[simp] theorem State.setTrace_row (es : List Entry) (s : State) : (s.setTrace es).row = s.row := rfl
@[simp] theorem State.setTrace_rs (es : List Entry) (s : State) : (s.setTrace es).rs = s.rs := rfl
@[simp] theorem State.setTrace_pend (es : List Entry) (s : State) : (s.setTrace es).pend = s.pend := rfl
@[simp] theorem State.setTrace_line (es : List Entry) (s : State) : (s.setTrace es).line = s.line := rfl
@[simp] theorem State.setTrace_started (es : List Entry) (s : State) : (s.setTrace es).started = s.started := rfl
@[simp] theorem State.setTrace_dirs (es : List Entry) (s : State) : (s.setTrace es).dirs = s.dirs := rfl
@[simp] theorem State.setTrace_edgeReg (es : List Entry) (s : State) : (s.setTrace es).edgeReg = s.edgeReg := rfl
@[simp] theorem State.setTrace_trace (es : List Entry) (s : State) : (s.setTrace es).trace = es := rfl

/-! `initialise` -/

@[simp] theorem State.initialise_cfg (s : State) : s.initialise.cfg = s.cfg := rfl
@[simp] theorem State.initialise_ks (s : State) : s.initialise.ks = Vector.replicate 7 .idle := rfl
@[simp] theorem State.initialise_row (s : State) : s.initialise.row = 0#8 := rfl
@[simp] theorem State.initialise_rs (s : State) : s.initialise.rs = .idle := rfl
@[simp] theorem State.initialise_pend (s : State) : s.initialise.pend = none := rfl
@[simp] theorem State.initialise_line (s : State) : s.initialise.line = .none := rfl
@[simp] theorem State.initialise_started (s : State) : s.initialise.started = true := rfl
@[simp] theorem State.initialise_dirs (s : State) : s.initialise.dirs = s.cfg.lineDirs := rfl
@[simp] theorem State.initialise_edgeReg (s : State) : s.initialise.edgeReg = if s.started then s.edgeReg else s.cfg.edgeSources := rfl
@[simp] theorem State.initialise_trace (s : State) : s.initialise.trace = s.trace := rfl

/-! `retire` touches `pend` and `line` only, `slotwr` those and one slot -/

@[simp] theorem State.retire_cfg (w : Write) (s : State) : (s.retire w).cfg = s.cfg := by
  unfold State.retire; repeat' split
  all_goals rfl
@[simp] theorem State.retire_ks (w : Write) (s : State) : (s.retire w).ks = s.ks := by
  unfold State.retire; repeat' split
  all_goals rfl
@[simp] theorem State.retire_row (w : Write) (s : State) : (s.retire w).row = s.row := by
  unfold State.retire; repeat' split
  all_goals rfl
@[simp] theorem State.retire_rs (w : Write) (s : State) : (s.retire w).rs = s.rs := by
  unfold State.retire; repeat' split
  all_goals rfl
@[simp] theorem State.retire_started (w : Write) (s : State) : (s.retire w).started = s.started := by
  unfold State.retire; repeat' split
  all_goals rfl
@[simp] theorem State.retire_dirs (w : Write) (s : State) : (s.retire w).dirs = s.dirs := by
  unfold State.retire; repeat' split
  all_goals rfl
@[simp] theorem State.retire_edgeReg (w : Write) (s : State) : (s.retire w).edgeReg = s.edgeReg := by
  unfold State.retire; repeat' split
  all_goals rfl
@[simp] theorem State.retire_trace (w : Write) (s : State) : (s.retire w).trace = s.trace := by
  unfold State.retire; repeat' split
  all_goals rfl

@[simp] theorem State.slotwr_cfg (w : Write) (s : State) : (s.slotwr w).cfg = s.cfg := by simp [State.slotwr]
@[simp] theorem State.slotwr_ks (w : Write) (s : State) : (s.slotwr w).ks = s.ks.set w.col.val w.val w.col.isLt := by
  simp [State.slotwr]
@[simp] theorem State.slotwr_row (w : Write) (s : State) : (s.slotwr w).row = s.row := by simp [State.slotwr]
@[simp] theorem State.slotwr_rs (w : Write) (s : State) : (s.slotwr w).rs = s.rs := by simp [State.slotwr]
@[simp] theorem State.slotwr_pend (w : Write) (s : State) : (s.slotwr w).pend = (s.retire w).pend := rfl
@[simp] theorem State.slotwr_line (w : Write) (s : State) : (s.slotwr w).line = (s.retire w).line := rfl
@[simp] theorem State.slotwr_started (w : Write) (s : State) : (s.slotwr w).started = s.started := by simp [State.slotwr]
@[simp] theorem State.slotwr_dirs (w : Write) (s : State) : (s.slotwr w).dirs = s.dirs := by simp [State.slotwr]
@[simp] theorem State.slotwr_edgeReg (w : Write) (s : State) : (s.slotwr w).edgeReg = s.edgeReg := by simp [State.slotwr]
@[simp] theorem State.slotwr_trace (w : Write) (s : State) : (s.slotwr w).trace = s.trace := by simp [State.slotwr]

/-! `putAll` touches the slots only -/

@[simp] theorem State.putAll_cfg (ws : List Write) (s : State) : (s.putAll ws).cfg = s.cfg := by
  induction ws generalizing s with
  | nil => rfl
  | cons w ws ih => exact ih _
@[simp] theorem State.putAll_row (ws : List Write) (s : State) : (s.putAll ws).row = s.row := by
  induction ws generalizing s with
  | nil => rfl
  | cons w ws ih => exact ih _
@[simp] theorem State.putAll_rs (ws : List Write) (s : State) : (s.putAll ws).rs = s.rs := by
  induction ws generalizing s with
  | nil => rfl
  | cons w ws ih => exact ih _
@[simp] theorem State.putAll_pend (ws : List Write) (s : State) : (s.putAll ws).pend = s.pend := by
  induction ws generalizing s with
  | nil => rfl
  | cons w ws ih => exact ih _
@[simp] theorem State.putAll_line (ws : List Write) (s : State) : (s.putAll ws).line = s.line := by
  induction ws generalizing s with
  | nil => rfl
  | cons w ws ih => exact ih _
@[simp] theorem State.putAll_started (ws : List Write) (s : State) : (s.putAll ws).started = s.started := by
  induction ws generalizing s with
  | nil => rfl
  | cons w ws ih => exact ih _
@[simp] theorem State.putAll_dirs (ws : List Write) (s : State) : (s.putAll ws).dirs = s.dirs := by
  induction ws generalizing s with
  | nil => rfl
  | cons w ws ih => exact ih _
@[simp] theorem State.putAll_edgeReg (ws : List Write) (s : State) : (s.putAll ws).edgeReg = s.edgeReg := by
  induction ws generalizing s with
  | nil => rfl
  | cons w ws ih => exact ih _
@[simp] theorem State.putAll_trace (ws : List Write) (s : State) : (s.putAll ws).trace = s.trace := by
  induction ws generalizing s with
  | nil => rfl
  | cons w ws ih => exact ih _

end Sys2Proof.Machine
end

