-- ==== Sys2Proof/Laws/Store.lean ====
section
/-! SUPPORT. The Key State Store as a register file, and what `ROWSEL` and `COLFIND` compute from it. -/

namespace Sys2Proof.Machine

/-! ## Slots -/

/-- A slot read back after a write: the value written, or what was there. -/
theorem slotOf_set (ks : Vector Slot 7) (c c' : Column) (v : Slot) :
    slotOf (ks.set c.val v c.isLt) c' = if c = c' then v else slotOf ks c' := by
  unfold slotOf
  rw [Vector.getElem_set]
  simp only [Fin.ext_iff]

@[simp] theorem slotOf_set_same (ks : Vector Slot 7) (c : Column) (v : Slot) :
    slotOf (ks.set c.val v c.isLt) c = v := by simp [slotOf_set]

theorem slotOf_set_ne (ks : Vector Slot 7) {c c' : Column} (v : Slot) (h : c ≠ c') :
    slotOf (ks.set c.val v c.isLt) c' = slotOf ks c' := by simp [slotOf_set, h]

@[simp] theorem slotOf_replicate (v : Slot) (c : Column) : slotOf (Vector.replicate 7 v) c = v := by
  simp [slotOf]

/-- Two stores with the same slots are the same store. -/
theorem store_ext {a b : Vector Slot 7} (h : ∀ c : Column, slotOf a c = slotOf b c) : a = b := by
  ext i hi
  exact h ⟨i, hi⟩

/-- Writes to different slots commute (R18). -/
theorem set_comm (ks : Vector Slot 7) {a b : Column} (x y : Slot) (h : a ≠ b) :
    (ks.set a.val x a.isLt).set b.val y b.isLt = (ks.set b.val y b.isLt).set a.val x a.isLt := by
  apply store_ext
  intro c
  simp only [slotOf_set]
  split <;> split <;> simp_all

/-- Writing a slot twice is writing it once with the later value (R77). -/
@[simp] theorem set_set (ks : Vector Slot 7) (a : Column) (x y : Slot) :
    (ks.set a.val x a.isLt).set a.val y a.isLt = ks.set a.val y a.isLt := by
  apply store_ext
  intro c
  simp only [slotOf_set]
  split <;> rfl

theorem State.slot_eq (s : State) (c : Column) : s.slot c = slotOf s.ks c := rfl

/-! ## Row vectors -/

theorem mem_allColumns (c : Column) : c ∈ allColumns := by revert c; decide

theorem mem_allRows (r : Row) : r ∈ allRows := by revert r; decide

theorem slotRows_getLsbD (v : Slot) (r : Row) : (slotRows v).getLsbD r.val = true ↔ v = .rowval r := by
  cases v with
  | idle => revert r; decide
  | rowval q => revert q r; decide

/-- The loop of `ROWSEL` over any columns: the bit was set before, or a scanned column records the row. -/
theorem rowsel_fold (mask : Levels) (ks : Vector Slot 7) (r : Row) (cs : List Column) (w : RowVec) :
    (cs.foldl (fun w c => if mask.getLsbD c.val then w ||| slotRows (slotOf ks c) else w) w).getLsbD r.val = true
      ↔ w.getLsbD r.val = true ∨ ∃ c ∈ cs, mask.getLsbD c.val = true ∧ slotOf ks c = .rowval r := by
  induction cs generalizing w with
  | nil => simp
  | cons c cs ih =>
    rw [List.foldl_cons, ih]
    by_cases hm : mask.getLsbD c.val = true
    · simp only [hm, if_true, BitVec.getLsbD_or, Bool.or_eq_true, slotRows_getLsbD]
      simp [hm, or_assoc]
    · have hm' : mask.getLsbD c.val = false := by simpa using hm
      rw [if_neg hm]
      simp only [List.mem_cons, exists_eq_or_imp, hm', Bool.false_eq_true, false_and, false_or]

/-- `ROWSEL` row by row (R86): row `r` is closed exactly when a scanned column records it. -/
theorem rowsel_getLsbD (mask : Levels) (ks : Vector Slot 7) (r : Row) :
    (rowsel mask ks).getLsbD r.val = true ↔ ∃ c, mask.getLsbD c.val = true ∧ slotOf ks c = .rowval r := by
  unfold rowsel
  rw [rowsel_fold]
  simp [mem_allColumns]

theorem onehot7_getLsbD (c c' : Column) : (onehot7 c).getLsbD c'.val = true ↔ c' = c := by
  revert c c'; decide

theorem scannedColumns_getLsbD (lv : Levels) (c : Column) :
    (scannedColumns lv).getLsbD c.val = true ↔ lv.getLsbD c.val = false := by
  have := c.isLt
  simp [scannedColumns, this]

theorem scannedColumns_scanLevels (c : Column) : scannedColumns (scanLevels c) = onehot7 c := by
  revert c; decide

/-- Two row vectors with the same rows are equal. -/
theorem rowVec_ext {a b : RowVec} (h : ∀ r : Row, a.getLsbD r.val = true ↔ b.getLsbD r.val = true) : a = b := by
  apply BitVec.eq_of_getLsbD_eq
  intro i hi
  exact Bool.eq_iff_iff.mpr (h ⟨i, hi⟩)

/-- A scan of one column closes the row its slot records, and no other (R86, R89). -/
theorem rowsel_onehot7 (c : Column) (ks : Vector Slot 7) : rowsel (onehot7 c) ks = slotRows (slotOf ks c) := by
  apply rowVec_ext
  intro r
  rw [rowsel_getLsbD, slotRows_getLsbD]
  constructor
  · rintro ⟨c', hc, hs⟩
    rw [(onehot7_getLsbD c c').mp hc] at hs
    exact hs
  · intro h
    exact ⟨c, (onehot7_getLsbD c c).mpr rfl, h⟩

end Sys2Proof.Machine
end

