-- ==== Sys2Proof/Laws/Tables.lean ====
section
/-! SUPPORT. The constant tables: what a lookup can answer, and what a well-formed configuration gives. -/

namespace Sys2Proof

/-- Every lookup answers `NOMAP` or a stored entry (R63). -/
theorem Config.klookup_mem (cfg : Config) (h : Byte) : cfg.klookup h = nomapByte ∨ cfg.klookup h ∈ cfg.keymap.toList := by
  unfold Config.klookup
  split
  · right; simp
  · left; rfl

/-- K1 (R64). -/
theorem Config.klookup_above (cfg : Config) (h : Byte) (hh : 0x52 < h.toNat) : cfg.klookup h = nomapByte := by
  unfold Config.klookup
  rw [dif_neg (by omega)]

/-- The constraints of a well-formed configuration, taken apart (R12). -/
theorem Config.wellFormed_iff (cfg : Config) : cfg.wellFormed = true ↔
    cfg.linesDistinct = true ∧ cfg.entriesValid = true ∧ cfg.unsupportedUnmapped = true ∧ cfg.letterA = true ∧
      cfg.minusShifted = true ∧ cfg.modifiersPlain = true ∧ cfg.chordsIndependent = true := by
  simp [Config.wellFormed, and_assoc]

/-- K2 for stored entries (R65). -/
theorem Config.entry_not_reserved {cfg : Config} (w : cfg.wellFormed = true) {k : Byte} (hk : k ∈ cfg.keymap.toList) :
    classify k ≠ .reserved := by
  have h := ((cfg.wellFormed_iff).mp w).2.1
  unfold Config.entriesValid at h
  have := List.all_eq_true.mp h k hk
  simpa [isReservedCode] using this

/-- No lookup answers a reserved code (R53, R65). -/
theorem Config.klookup_not_reserved {cfg : Config} (w : cfg.wellFormed = true) (h : Byte) :
    classify (cfg.klookup h) ≠ .reserved := by
  rcases cfg.klookup_mem h with hn | hm
  · rw [hn]; decide
  · exact Config.entry_not_reserved w hm

/-- M1 (R70): a Modifier Table entry is an unchorded key. -/
theorem Config.mlookup_plain {cfg : Config} (w : cfg.wellFormed = true) (key : ModKey) :
    ∃ c r, classify (cfg.mlookup key) = .key .none c r := by
  have h := ((cfg.wellFormed_iff).mp w).2.2.2.2.2.1
  unfold Config.modifiersPlain at h
  split at h
  · next a b c ha hb hc =>
    have plain : ∀ {k : Byte} {x : Column × Row}, plainCoordinate k = some x → ∃ c r, classify k = .key .none c r := by
      intro k x hx
      unfold plainCoordinate at hx
      split at hx
      · next hk => exact ⟨_, _, hk⟩
      · cases hx
    cases key
    · exact plain ha
    · exact plain hb
    · exact plain hc
  · cases h

/-- A Modifier Table entry names a column (R70). -/
theorem Config.mlookup_column {cfg : Config} (w : cfg.wellFormed = true) (key : ModKey) :
    ∃ c, columnOfBits (kColumn (cfg.mlookup key)) = some c := by
  obtain ⟨c, r, h⟩ := Config.mlookup_plain w key
  exact ⟨c, by rw [classify_eq_key.mp h]; simp⟩

/-- M2 (R71) for stored entries. -/
theorem Config.chord_columns_differ {cfg : Config} (w : cfg.wellFormed = true) {k : Byte} (hk : k ∈ cfg.keymap.toList)
    {m : Modifier} {c cm : Column} {r : Row} {key : ModKey} (hc : classify k = .key m c r) (hm : m.key? = some key)
    (hcm : columnOfBits (kColumn (cfg.mlookup key)) = some cm) : cm ≠ c := by
  have h := ((cfg.wellFormed_iff).mp w).2.2.2.2.2.2
  have := List.all_eq_true.mp h k hk
  unfold Config.chordColumnsApart at this
  simp only [hc, hm, hcm] at this
  simpa using this

/-- M2 (R71) for lookups. -/
theorem Config.lookup_columns_differ {cfg : Config} (w : cfg.wellFormed = true) {h : Byte}
    {m : Modifier} {c cm : Column} {r : Row} {key : ModKey} (hc : classify (cfg.klookup h) = .key m c r)
    (hm : m.key? = some key) (hcm : columnOfBits (kColumn (cfg.mlookup key)) = some cm) : cm ≠ c := by
  rcases cfg.klookup_mem h with hn | hk
  · rw [hn, classify_nomapByte] at hc; cases hc
  · exact Config.chord_columns_differ w hk hc hm hcm

/-- `COLFIND` answers a column whose line it is (R94). -/
theorem Config.colfind_some {cfg : Config} {id : LineId} {c : Column} (h : cfg.colfind id = some c) :
    cfg.columnLine c = id := by
  have := List.find?_some h
  simpa using this

/-- `COLFIND` answers `NOTFOUND` exactly when the line is no column line (R94). -/
theorem Config.colfind_none {cfg : Config} {id : LineId} : cfg.colfind id = none ↔ ∀ c, cfg.columnLine c ≠ id := by
  unfold Config.colfind
  rw [List.find?_eq_none]
  simp [Machine.mem_allColumns]

/-- The column lines are distinct (R35). -/
theorem Config.columnLine_injective {cfg : Config} (w : cfg.wellFormed = true) {a b : Column}
    (h : cfg.columnLine a = cfg.columnLine b) : a = b := by
  have hd := ((cfg.wellFormed_iff).mp w).1
  unfold Config.linesDistinct at hd
  have hn := (List.nodup_append.mp (of_decide_eq_true hd)).1
  have := (List.Nodup.getElem_inj_iff hn (i := a.val) (j := b.val) (hi := by simp) (hj := by simp)).mp
    (by simpa [Config.columnLine] using h)
  exact Fin.ext this

/-- The row lines are distinct (R35). -/
theorem Config.rowLineOf_injective {cfg : Config} (w : cfg.wellFormed = true) {a b : Row}
    (h : cfg.rowLineOf a = cfg.rowLineOf b) : a = b := by
  have hd := ((cfg.wellFormed_iff).mp w).1
  unfold Config.linesDistinct at hd
  have hn := (List.nodup_append.mp (of_decide_eq_true hd)).2.1
  have := (List.Nodup.getElem_inj_iff hn (i := a.val) (j := b.val) (hi := by simp) (hj := by simp)).mp
    (by simpa [Config.rowLineOf] using h)
  exact Fin.ext this

/-- No line is both a column line and a row line (R35). -/
theorem Config.columnLine_ne_rowLineOf {cfg : Config} (w : cfg.wellFormed = true) (c : Column) (r : Row) :
    cfg.columnLine c ≠ cfg.rowLineOf r := by
  have hd := ((cfg.wellFormed_iff).mp w).1
  unfold Config.linesDistinct at hd
  exact (List.nodup_append.mp (of_decide_eq_true hd)).2.2 _ (by simp [Config.columnLine]) _ (by simp [Config.rowLineOf])

/-- In a well-formed configuration the line of a column leads back to it (R94). -/
theorem Config.colfind_columnLine {cfg : Config} (w : cfg.wellFormed = true) (c : Column) :
    cfg.colfind (cfg.columnLine c) = some c := by
  cases h : cfg.colfind (cfg.columnLine c) with
  | none => exact absurd rfl (Config.colfind_none.mp h c)
  | some c' => rw [Config.columnLine_injective w (Config.colfind_some h)]

/-- `rowfind` is the same search over the row lines. -/
theorem Config.rowfind_some {cfg : Config} {id : LineId} {r : Row} (h : cfg.rowfind id = some r) :
    cfg.rowLineOf r = id := by
  have := List.find?_some h
  simpa using this

theorem Config.rowfind_none {cfg : Config} {id : LineId} : cfg.rowfind id = none ↔ ∀ r, cfg.rowLineOf r ≠ id := by
  unfold Config.rowfind
  rw [List.find?_eq_none]
  simp [Machine.mem_allRows]

theorem Config.rowfind_rowLineOf {cfg : Config} (w : cfg.wellFormed = true) (r : Row) :
    cfg.rowfind (cfg.rowLineOf r) = some r := by
  cases h : cfg.rowfind (cfg.rowLineOf r) with
  | none => exact absurd rfl (Config.rowfind_none.mp h r)
  | some r' => rw [Config.rowLineOf_injective w (Config.rowfind_some h)]

end Sys2Proof
end

