-- ==== Sys2Proof/Laws/Ops.lean ====
section
/-! SUPPORT. What each shared operation and each meaning can do, said once. -/

namespace Sys2Proof.Machine

/-! ## When a key event is under way -/

theorem State.keyEventOpen_eq_false {s : State} : s.keyEventOpen = false ↔ s.line = .none ∧ s.pend = none := by
  simp [State.keyEventOpen]

theorem State.keyEventOpen_eq_true {s : State} : s.keyEventOpen = true ↔ s.line ≠ .none ∨ s.pend ≠ none := by
  simp [State.keyEventOpen, Option.isSome_iff_ne_none]

/-! ## EXPAND -/

theorem expand_unchorded {cfg : Config} {k : Byte} {m : Modifier} {c : Column} {r : Row} (p : Bool)
    (hk : classify k = .key m c r) (hm : m.key? = none) : expand cfg k p = some [⟨c, pressValue p r⟩] := by
  unfold expand
  simp [hk, hm]

theorem expand_chorded {cfg : Config} {k : Byte} {m : Modifier} {c cm : Column} {r : Row} {key : ModKey} (p : Bool)
    (hk : classify k = .key m c r) (hm : m.key? = some key) (hc : columnOfBits (kColumn (cfg.mlookup key)) = some cm) :
    expand cfg k p = some [⟨cm, pressValue p (kRow (cfg.mlookup key))⟩, ⟨c, pressValue p r⟩] := by
  unfold expand
  simp [hk, hm, hc]

/-- The shapes of `EXPAND` (R76): one write of an unchorded key, or two of a chorded one. -/
theorem expand_cases {cfg : Config} {k : Byte} {p : Bool} {ws : List Write} (h : expand cfg k p = some ws) :
    ∃ m c r, classify k = .key m c r ∧
      ((m.key? = none ∧ ws = [⟨c, pressValue p r⟩]) ∨
       ∃ key cm, m.key? = some key ∧ columnOfBits (kColumn (cfg.mlookup key)) = some cm ∧
         ws = [⟨cm, pressValue p (kRow (cfg.mlookup key))⟩, ⟨c, pressValue p r⟩]) := by
  cases hk : classify k with
  | nomap => simp [expand, hk] at h
  | reserved => simp [expand, hk] at h
  | key m c r =>
    refine ⟨m, c, r, rfl, ?_⟩
    cases hm : m.key? with
    | none => simp [expand, hk, hm] at h; exact .inl ⟨rfl, h.symm⟩
    | some key =>
      cases hc : columnOfBits (kColumn (cfg.mlookup key)) with
      | none => simp [expand, hk, hm, hc] at h
      | some cm => simp [expand, hk, hm, hc] at h; exact .inr ⟨key, cm, rfl, hc, h.symm⟩

/-- A well-formed configuration expands every key (R70). -/
theorem expand_total {cfg : Config} (w : cfg.wellFormed = true) {k : Byte} {m : Modifier} {c : Column} {r : Row} (p : Bool)
    (hk : classify k = .key m c r) : ∃ ws, expand cfg k p = some ws := by
  cases hm : m.key? with
  | none => exact ⟨_, expand_unchorded p hk hm⟩
  | some key =>
    obtain ⟨cm, hc⟩ := Config.mlookup_column w key
    exact ⟨_, expand_chorded p hk hm hc⟩

/-! ## setKey -/

theorem setKey_nomap (p : Bool) (s : State) : setKey p nomapByte s = .next (s.setLine .none) := by
  unfold setKey; simp

theorem setKey_reserved {k : Byte} (p : Bool) (s : State) (hk : classify k = .reserved) :
    setKey p k s = .refused (.reservedKeycode k) := by
  unfold setKey; simp [hk]

theorem setKey_expand {k : Byte} {p : Bool} {s : State} {ws : List Write} (h : expand s.cfg k p = some ws) :
    setKey p k s = .next (performWrites (s.line == .setkey p k) ws s) := by
  obtain ⟨m, c, r, hk, -⟩ := expand_cases h
  unfold setKey; simp [hk, h]

/-- Everything a `setKey` that goes on can do. -/
theorem setKey_next {k : Byte} {p : Bool} {s t : State} (h : setKey p k s = .next t) :
    (k = nomapByte ∧ t = s.setLine .none) ∨ ∃ ws, expand s.cfg k p = some ws ∧ t = performWrites (s.line == .setkey p k) ws s := by
  unfold setKey at h
  split at h
  · next hk => exact .inl ⟨classify_eq_nomap.mp hk, by injection h with h; exact h.symm⟩
  · cases h
  · split at h
    · cases h
    · next ws he => exact .inr ⟨ws, he, by injection h with h; exact h.symm⟩

theorem performWrites_writtenOut (w : Write) (ws : List Write) (s : State) :
    performWrites true (w :: ws) s = s.setLine (.write w ws.head?) := rfl

theorem performWrites_whole (w : Write) (ws : List Write) (s : State) :
    performWrites false (w :: ws) s = (s.setLine .none).putAll (w :: ws) := rfl

/-- The whole `setKey` of an unchorded code: one slot. -/
theorem setKey_whole_unchorded {k : Byte} {m : Modifier} {c : Column} {r : Row} {s : State} (p : Bool)
    (hk : classify k = .key m c r) (hm : m.key? = none) (hl : s.line ≠ .setkey p k) :
    setKey p k s = .next ((s.setLine .none).putSlot c (pressValue p r)) := by
  rw [setKey_expand (expand_unchorded p hk hm), beq_eq_false_iff_ne.mpr hl]; rfl

/-- The whole `setKey` of a chorded code: the modifier key's slot, then the key's (R76). -/
theorem setKey_whole_chorded {k : Byte} {m : Modifier} {c cm : Column} {r : Row} {key : ModKey} {s : State} (p : Bool)
    (hk : classify k = .key m c r) (hm : m.key? = some key)
    (hc : columnOfBits (kColumn (s.cfg.mlookup key)) = some cm) (hl : s.line ≠ .setkey p k) :
    setKey p k s =
      .next (((s.setLine .none).putSlot cm (pressValue p (kRow (s.cfg.mlookup key)))).putSlot c (pressValue p r)) := by
  rw [setKey_expand (expand_chorded p hk hm hc), beq_eq_false_iff_ne.mpr hl]; rfl

/-- The `SETKEY` line of a written-out key event: its first write is the line due next, its second one follows. -/
theorem setKey_line {k : Byte} {p : Bool} {s : State} {w : Write} {ws : List Write} (hl : s.line = .setkey p k)
    (he : expand s.cfg k p = some (w :: ws)) : setKey p k s = .next (s.setLine (.write w ws.head?)) := by
  rw [setKey_expand he, beq_iff_eq.mpr hl]; rfl

/-- A `setKey`'s writes touch the slots and the open line only. -/
theorem performWrites_frame (writtenOut : Bool) (ws : List Write) (s : State) :
    ∃ ks line, performWrites writtenOut ws s = { s with ks := ks, line := line } := by
  have hput : ∀ (l : List Write) (u : State), u.putAll l = { u with ks := (u.putAll l).ks } := by
    intro l
    induction l with
    | nil => intro u; rfl
    | cons x l ih => intro u; exact ih _
  cases ws with
  | nil => exact ⟨s.ks, .none, rfl⟩
  | cons w ws =>
    cases writtenOut with
    | true => exact ⟨s.ks, _, rfl⟩
    | false => exact ⟨((s.setLine .none).putAll (w :: ws)).ks, .none, hput (w :: ws) (s.setLine .none)⟩

/-! ## Key events -/

theorem keyEvent_writtenOut {s : State} (p : Bool) (h : Byte) (hs : stepsShown s.trace = true) :
    keyEvent p h s = .next (s.setLine (.setkey p (s.cfg.klookup h))) := by
  unfold keyEvent; simp [hs]

theorem keyEvent_whole {s : State} (p : Bool) (h : Byte) (hs : stepsShown s.trace = false) :
    keyEvent p h s = setKey p (s.cfg.klookup h) (s.setLine .none) := by
  unfold keyEvent; simp [hs]

/-! ## Slot writes -/

/-- A write that is not due leaves the translator's note alone. -/
theorem retire_not_due {w : Write} {s : State} (h : s.due ≠ some w) : s.retire w = s := by
  unfold State.due at h
  unfold State.retire
  split <;> simp_all
  intro hw; exact absurd hw.symm h

theorem retire_pend {w : Write} {s : State} (hl : s.line = .none) (hp : s.pend = some w) :
    s.retire w = s.setPend none := by
  unfold State.retire; simp [hl, hp]

theorem retire_first {w : Write} {after : Option Write} {s : State} (hl : s.line = .write w after) :
    s.retire w = (s.setLine .none).setPend after := by
  unfold State.retire; simp [hl]

/-! ## Scans -/

theorem execPoll_next {lv : Levels} {s t : State} (h : execPoll lv s = .next t) :
    s.cfg.variant = .poll ∧ t = s.driveRows (rowsel (scannedColumns lv) s.ks) := by
  unfold execPoll at h
  split at h
  · next hv => injection h with h; exact ⟨hv, h.symm⟩
  · cases h

theorem service_some {id : LineId} {c : Column} {s : State} (h : s.cfg.colfind id = some c) :
    service id s = s.driveRows (slotRows (s.slot c)) := by
  unfold service; simp [h, rowsel_onehot7, State.slot_eq]

theorem service_none {id : LineId} {s : State} (h : s.cfg.colfind id = none) : service id s = s := by
  unfold service; simp [h]

theorem execEdge_next {id : LineId} {s t : State} (h : execEdge id s = .next t) :
    s.cfg.variant = .irq ∧
      ((∃ c, s.cfg.colfind id = some c ∧ t = (s.driveRows (slotRows (s.slot c))).leaveServicing) ∨
       (s.cfg.colfind id = none ∧ t = s.leaveServicing)) := by
  unfold execEdge at h
  split at h
  · next hv =>
    injection h with h
    refine ⟨hv, ?_⟩
    cases hc : s.cfg.colfind id with
    | none => exact .inr ⟨rfl, by rw [← h, service_none (s := s.enterServicing) hc]; rfl⟩
    | some c => exact .inl ⟨c, rfl, by rw [← h, service_some (s := s.enterServicing) hc]; rfl⟩
  · cases h

end Sys2Proof.Machine
end

