-- ==== Sys2Proof/Laws/PerInstr.lean ====
section
/-! SUPPORT. For every instruction: its encoding lies in the row of spec/opcode_table.json that it stands for. -/

namespace Sys2Proof.Laws.TableRow

/-- A word of the row: the fixed bits under the row's mask (R48, R53). -/
def inRow (mask pattern : Nat) : Entry → Bool
  | .ew w => w.toNat &&& mask == pattern
  | .pk w => w.toNat &&& mask == pattern

/-- The row's mask and match, as the table gives them. -/
def rowOf : Instr → Nat × Nat
  | .reset => (0xFFF, 0x000)
  | .keyup _ => (0xF00, 0x200)
  | .keydn _ => (0xF00, 0x300)
  | .poll _ => (0xF80, 0x400)
  | .edge _ => (0xF00, 0x600)
  | .setkey _ _ => (0xE00, 0x800)
  | .slotwr _ _ => (0xF80, 0xA00)
  | .pkNomap _ => (0xFF, 0xFF)
  | .pkReserved _ _ _ => (0x38, 0x38)
  | .pkNone _ _ _ => (0xC0, 0x00)
  | .pkCtrl _ _ _ => (0xC0, 0x40)
  | .pkFctn _ _ _ => (0xC0, 0x80)
  | .pkShift _ _ _ => (0xC0, 0xC0)

def Statement (i : Instr) : Prop := inRow (rowOf i).1 (rowOf i).2 (encode i) = true

theorem reset : Statement .reset := by unfold Statement; decide

theorem keyup (h : Byte) : Statement (.keyup h) := by revert h; unfold Statement; decide

theorem keydn (h : Byte) : Statement (.keydn h) := by revert h; unfold Statement; decide

theorem poll (lv : Levels) : Statement (.poll lv) := by revert lv; unfold Statement; decide

theorem edge (id : LineId) : Statement (.edge id) := by revert id; unfold Statement; decide

theorem setkey (p : Bool) (k : Byte) : Statement (.setkey p k) := by revert p k; unfold Statement; decide

theorem slotwr (c : Column) (v : Slot) : Statement (.slotwr c v) := by
  cases v with
  | idle => revert c; unfold Statement; decide
  | rowval r => revert c r; unfold Statement; decide

theorem pkNomap (p : Bool) : Statement (.pkNomap p) := by revert p; unfold Statement; decide

theorem pkReserved (p : Bool) (m : Modifier) (r : Row) : Statement (.pkReserved p m r) := by
  cases m <;> (revert p r; unfold Statement; decide)

theorem pkNone (p : Bool) (c : Column) (r : Row) : Statement (.pkNone p c r) := by
  revert p c r; unfold Statement; decide

theorem pkCtrl (p : Bool) (c : Column) (r : Row) : Statement (.pkCtrl p c r) := by
  revert p c r; unfold Statement; decide

theorem pkFctn (p : Bool) (c : Column) (r : Row) : Statement (.pkFctn p c r) := by
  revert p c r; unfold Statement; decide

theorem pkShift (p : Bool) (c : Column) (r : Row) : Statement (.pkShift p c r) := by
  revert p c r; unfold Statement; decide

end Sys2Proof.Laws.TableRow
end

