-- ==== Sys2Proof/Laws/Step.lean ====
section
/-! SUPPORT. What a key event, an operation and a step can do to the state, said once each. -/

namespace Sys2Proof.Machine

/-- A `setKey` touches the slots and the open line only. -/
theorem setKey_frame {p : Bool} {k : Byte} {s t : State} (h : setKey p k s = .next t) :
    ∃ ks line, t = { s with ks := ks, line := line } := by
  rcases setKey_next h with ⟨-, rfl⟩ | ⟨ws, -, rfl⟩
  · exact ⟨s.ks, .none, rfl⟩
  · exact performWrites_frame _ ws s

/-- A slot write touches the slots, the open line and `PEND` only. -/
theorem slotwr_frame (w : Write) (s : State) :
    s.slotwr w =
      { s with ks := (s.slotwr w).ks, line := (s.slotwr w).line, pend := (s.slotwr w).pend } := by
  unfold State.slotwr State.retire
  repeat' split
  all_goals rfl

/-- A key event touches the slots and the open line only. -/
theorem keyEvent_frame {p : Bool} {h : Byte} {s t : State} (he : keyEvent p h s = .next t) :
    ∃ ks line, t = { s with ks := ks, line := line } := by
  cases hs : stepsShown s.trace with
  | true =>
    rw [keyEvent_writtenOut p h hs] at he
    injection he with he
    exact ⟨s.ks, _, he.symm⟩
  | false =>
    rw [keyEvent_whole p h hs] at he
    obtain ⟨ks, line, rfl⟩ := setKey_frame he
    exact ⟨ks, line, rfl⟩

/-- The translator's operations touch the slots, the open line and `PEND` only. -/
theorem translator_frame {i : Instr} {s t : State} (h : exec i s = .next t) (hi : mayWriteRows i = false) :
    ∃ ks line pend, t = { s with ks := ks, line := line, pend := pend } := by
  have key : ∀ p x, keyEvent p x s = .next t → ∃ ks line pend, t = { s with ks := ks, line := line, pend := pend } := by
    intro p x h
    obtain ⟨ks, line, e⟩ := keyEvent_frame h
    exact ⟨ks, line, s.pend, e⟩
  have set : ∀ p k, setKey p k s = .next t → ∃ ks line pend, t = { s with ks := ks, line := line, pend := pend } := by
    intro p k h
    obtain ⟨ks, line, e⟩ := setKey_frame h
    exact ⟨ks, line, s.pend, e⟩
  cases i with
  | reset => cases hi
  | poll _ => cases hi
  | edge _ => cases hi
  | keyup x => exact key false x h
  | keydn x => exact key true x h
  | setkey p k => exact set p k h
  | slotwr c v =>
    have h : Host.Outcome.next (s.slotwr ⟨c, v⟩) = .next t := h
    injection h with h
    subst h
    exact ⟨_, _, _, slotwr_frame _ _⟩
  | pkNomap p => exact set p nomapByte h
  | pkReserved p m r => cases h
  | pkNone p c r => exact set p _ h
  | pkCtrl p c r => exact set p _ h
  | pkFctn p c r => exact set p _ h
  | pkShift p c r => exact set p _ h

/-- With no event left a step that goes on is a wait, between key events. -/
theorem await_next {s t : State} (h : s.await = .next t) : s.keyEventOpen = false ∧ t = s := by
  unfold State.await at h
  split at h
  · cases h
  · next ho => injection h with h; exact ⟨by simpa using ho, h.symm⟩

/-- Everything a step that goes on can be: a wait between key events, or the next event's operation. -/
theorem step_cases {s t : State} (h : step s = .next t) :
    s.cfg.wellFormed = true ∧
      ((s.trace = [] ∧ s.keyEventOpen = false ∧ t = s) ∨
       ∃ e rest i, s.trace = e :: rest ∧ decode e = .ok i ∧ s.admission i = none ∧
         exec i (s.setTrace rest) = .next t) := by
  unfold step at h
  split at h
  · next hw =>
    refine ⟨hw, ?_⟩
    split at h
    · next ht => exact .inl ⟨ht, await_next h⟩
    · next e rest ht =>
      split at h
      · cases h
      · next i hd =>
        split at h
        · cases h
        · next ha => exact .inr ⟨e, rest, i, ht, hd, ha, h⟩
  · cases h

/-- A run of one step more, when the step goes on. -/
theorem run_succ {n : Nat} {s t : State} (h : step s = .next t) :
    Host.Core.run Sys2Proof.core (n + 1) s = Host.Core.run Sys2Proof.core n t := by
  have e : Sys2Proof.core.step s = .next t := h
  simp only [Host.Core.run, e]

/-- In a run an operation is admitted exactly when it may come now (R24, R61). -/
theorem admission_eq_none {i : Instr} {s : State} (hs : s.started = true) :
    s.admission i = none ↔ s.mayRun i = true := by
  simp only [State.admission, hs, Bool.true_or, if_true]
  repeat' split
  all_goals simp_all

/-- What a step may run is what may come now (R61). -/
theorem mayRun_of_admission {i : Instr} {s : State} (h : s.admission i = none) : s.mayRun i = true := by
  unfold State.admission at h
  repeat' split at h
  all_goals first | assumption | cases h

/-- The open line of a written-out key event, in a state of a run: its code comes from the table (R75). -/
theorem lineFits_setkey {s : State} {p : Bool} {k : Byte} (hf : s.lineFits = true) (hl : s.line = .setkey p k) :
    s.pend = none ∧ (k = nomapByte ∨ k ∈ s.cfg.keymap.toList) := by
  simpa [State.lineFits, hl] using hf

end Sys2Proof.Machine
end

