-- ==== Sys2Proof/Tests/Slice0.lean ====
section
/-! SUPPORT. Tests against the vectors of spec/95_test_vectors.md (the expected values are the spec's), the
smoke tests of WellFormed.lean, and for every statement a witness that its hypotheses can be met together. -/

namespace Sys2Proof.Tests

open Sys2Proof Sys2Proof.Machine

/-! ## Helpers -/

/-- Slots as the spec writes them: a row, or none for `-`. -/
def store (a : List (Option Row)) : Vector Slot 7 :=
  #v[at' 0, at' 1, at' 2, at' 3, at' 4, at' 5, at' 6]
where
  at' (n : Nat) : Slot :=
    match a[n]? with
    | some (some r) => .rowval r
    | _ => .idle

/-- A state after reset in the fixture, with these slots. -/
def withStore (v : Variant) (a : List (Option Row)) : State :=
  { State.afterReset (fixture v) with ks := store a }

/-- The same with events to arrive. -/
def withTrace (v : Variant) (es : List Entry) : State := { State.afterReset (fixture v) with trace := es }

/-- The state a step goes on to, if it does. -/
def after (o : Host.Outcome State Fault Refusal) : Option State :=
  match o with
  | .next t => some t
  | .fault _ | .refused _ => none

/-- The slots a step leaves. -/
def slotsAfter (o : Host.Outcome State Fault Refusal) : Option (List Slot) := (after o).map fun t => t.ks.toList

/-- The row latch a step leaves. -/
def rowsAfter (o : Host.Outcome State Fault Refusal) : Option RowVec := (after o).map (·.row)

/-- The reason a step is refused, if it is. -/
def refusalOf (o : Host.Outcome State Fault Refusal) : Option Refusal :=
  match o with
  | .refused r => some r
  | .next _ | .fault _ => none

/-- The slots of a list of the spec's notation. -/
def slots (a : List (Option Row)) : Option (List Slot) := some (store a).toList

/-- A fixture whose Ctrl and Shift share a coordinate: M1 (R70) fails. -/
def badConfig : Config := { fixture .poll with modmap := #v[0x04#8, 0x31#8, 0x04#8] }

/-- The state of P3 between the two writes of the chord. -/
def midChord : State := { withStore .irq [some 4] with pend := some ⟨4, .rowval 6⟩ }

/-- A state with the first write of a written-out chord due. -/
def firstDue : State := { withStore .irq [] with line := .write ⟨0, .rowval 4⟩ (some ⟨4, .rowval 6⟩) }

/-! ## WellFormed and the configuration -/

theorem test_wf_refuses_reserved_setkey : (Instr.setkey true 0x38#8).wellFormed = false := by decide
theorem test_wf_refuses_nomap_as_reserved : (Instr.pkReserved false .shift 7).wellFormed = false := by decide
theorem test_fixture_wellFormed : (fixture .poll).wellFormed = true ∧ (fixture .irq).wellFormed = true := by decide
theorem test_bad_config : badConfig.wellFormed = false := by decide

/-! ## Encodings (vectors of section 3) -/

theorem test_decode_ops :
    decode (.ew 0x000#12) = .ok .reset ∧ decode (.ew 0x3FF#12) = .ok (.keydn 0xFF#8) ∧
    decode (.ew 0x200#12) = .ok (.keyup 0x00#8) ∧ decode (.ew 0x400#12) = .ok (.poll 0#7) ∧
    decode (.ew 0x6FF#12) = .ok (.edge 0xFF#8) ∧ decode (.ew 0x8E6#12) = .ok (.setkey false 0xE6#8) ∧
    decode (.ew 0xA20#12) = .ok (.slotwr 2 .idle) ∧ decode (.ew 0xA6F#12) = .ok (.slotwr 6 (.rowval 7)) := by
  decide

theorem test_decode_packed :
    decodeTableWord 8 0xFF = some (.pkNomap false) ∧ decodeTableWord 8 0x7F = some (.pkReserved false .ctrl 7) ∧
    decodeTableWord 8 0x37 = some (.pkNone false 6 7) ∧ decodeTableWord 8 0x68 = some (.pkCtrl false 5 0) ∧
    decodeTableWord 8 0x8A = some (.pkFctn false 1 2) ∧ decodeTableWord 8 0xE6 = some (.pkShift false 4 6) := by
  decide

theorem test_decode_reserved :
    decode (.ew 0x001#12) = .error .resetPayload ∧ decode (.ew 0x480#12) = .error .pollHighBits ∧
    decode (.ew 0x500#12) = .error .pollHighBits ∧ decode (.ew 0x700#12) = .error .edgeHighBit ∧
    decode (.ew 0xA70#12) = .error .slotwrColumn ∧ decode (.ew 0xA23#12) = .error .slotwrValue ∧
    decode (.ew 0xA80#12) = .error .slotwrHighBits ∧ decode (.ew 0xB00#12) = .error .slotwrHighBits ∧
    decode (.ew 0xC00#12) = .error .groupSix ∧ decode (.ew 0xDFF#12) = .error .groupSix ∧
    decode (.ew 0xE00#12) = .error .groupSeven ∧ decode (.ew 0xFFF#12) = .error .groupSeven := by
  decide

/-- R48: "the rows are disjoint". -/
theorem test_rows_disjoint :
    opcodeMap.Pairwise fun a b => a.pattern &&& (a.mask &&& b.mask) ≠ b.pattern &&& (a.mask &&& b.mask) := by
  decide

theorem test_text :
    readLine "SLOTWR 4, 0xE           ; c, v".toList = some (.op (.slotwr 4 (.rowval 6))) ∧
    readLine "POLL 0b1111011".toList = some (.op (.poll 0x7B#7)) ∧
    readLine "SCAN 7".toList = none := by decide

/-! ## Tables (section 4) -/

theorem test_klookup :
    (fixture .poll).klookup 0x52#8 = 0x8A#8 ∧ (fixture .poll).klookup 0x53#8 = 0xFF#8 ∧
    (fixture .poll).klookup 0x29#8 = 0xFF#8 ∧ (fixture .poll).klookup 0x2C#8 = 0x00#8 := by decide
theorem test_mlookup :
    (fixture .poll).mlookup .ctrl = 0x06#8 ∧ (fixture .poll).mlookup .fctn = 0x31#8 ∧
    (fixture .poll).mlookup .shift = 0x04#8 := by decide
theorem test_colfind :
    (fixture .irq).colfind 0x16#8 = some 6 ∧ (fixture .irq).colfind 0x17#8 = none ∧
    (fixture .irq).colfind 0x0F#8 = none ∧ (fixture .irq).colfind 0x20#8 = none := by decide

/-! ## Operations (sections 5 to 8), one step each -/

/-- Section 8. -/
theorem test_reset :
    slotsAfter (exec .reset { withStore .irq [some 4, none, some 5] with row := 0x40#8, pend := some ⟨4, .rowval 6⟩ })
      = slots [] := by decide
theorem test_reset_rest :
    (after (exec .reset { withStore .irq [some 4] with row := 0x40#8, pend := some ⟨4, .rowval 6⟩ })).map
      (fun t => (t.row, t.pend, t.rs)) = some (0#8, none, .idle) := by decide
/-- T6. -/
theorem test_keydn_chord :
    slotsAfter (exec (.keydn 0x2D#8) (withStore .poll [])) = slots [some 4, none, none, none, some 6] := by decide
/-- T16: Space overwrites Shift, and row 0 is not idle. -/
theorem test_keydn_overwrites :
    slotsAfter (exec (.keydn 0x2C#8) (withStore .poll [some 4, none, none, none, some 6]))
      = slots [some 0, none, none, none, some 6] := by decide
/-- T9, its last event. -/
theorem test_keyup_blind : slotsAfter (exec (.keyup 0x04#8) (withStore .poll [none, none, some 1])) = slots [] := by decide
/-- T17, its last event. -/
theorem test_keyup_chord :
    slotsAfter (exec (.keyup 0x2D#8) (withStore .poll [some 0, none, none, none, some 6])) = slots [] := by decide
theorem test_poll_two_columns :
    rowsAfter (exec (.poll 0b1101110#7) (withStore .poll [some 4, none, none, none, some 6])) = some 0x50#8 := by decide
theorem test_poll_none :
    rowsAfter (exec (.poll 0b1111111#7) { withStore .poll [none, none, some 5] with row := 0xFF#8 }) = some 0x00#8 := by
  decide
theorem test_edge_column :
    rowsAfter (exec (.edge 0x14#8) { withStore .irq [some 4, none, none, none, some 6] with row := 0x10#8 })
      = some 0x40#8 := by decide
theorem test_edge_unknown :
    rowsAfter (exec (.edge 0x26#8) { withStore .irq [some 4, none, none, none, some 6] with row := 0x10#8 })
      = some 0x10#8 := by decide
theorem test_setkey_press : slotsAfter (exec (.setkey true 0x15#8) (withStore .poll [])) = slots [none, none, some 5] := by
  decide
theorem test_setkey_release :
    slotsAfter (exec (.setkey false 0xE6#8) (withStore .poll [some 4, none, none, none, some 6])) = slots [] := by decide
theorem test_slotwr : slotsAfter (exec (.slotwr 4 (.rowval 6)) (withStore .poll [])) = slots [none, none, none, none, some 6] := by
  decide
/-- P3, line 4: after the first write of a written-out chord the second is pending. -/
theorem test_slotwr_first :
    (after (exec (.slotwr 0 (.rowval 4))
      { withStore .irq [] with line := .write ⟨0, .rowval 4⟩ (some ⟨4, .rowval 6⟩) })).map (fun t => (t.pend, t.line))
      = some (some ⟨4, .rowval 6⟩, .none) := by decide
theorem test_pkNomap : slotsAfter (exec (.pkNomap true) (withStore .poll [some 4])) = slots [some 4] := by decide
theorem test_pkReserved : refusalOf (exec (.pkReserved true .shift 6) State.reset) = some (.reservedKeycode 0xFE#8) := by
  decide
theorem test_pkNone : slotsAfter (exec (.pkNone true 6 7) (withStore .poll [])) = slots [none, none, none, none, none, none, some 7] := by
  decide
/-- `EXPAND(0x68, 1)`. -/
theorem test_pkCtrl :
    slotsAfter (exec (.pkCtrl true 5 0) (withStore .poll [])) = slots [some 6, none, none, none, none, some 0] := by decide
/-- `EXPAND(0x8A, 1)`. -/
theorem test_pkFctn :
    slotsAfter (exec (.pkFctn true 1 2) (withStore .poll [])) = slots [none, some 2, none, none, none, none, some 1] := by
  decide
/-- `EXPAND(0xD8, 1)`. -/
theorem test_pkShift :
    slotsAfter (exec (.pkShift true 3 0) (withStore .poll [])) = slots [some 4, none, none, some 0] := by decide

/-! ## Steps -/

/-- P1, line 2, fetched. -/
theorem test_step_keydn : slotsAfter (step (State.reset.withFetchWord 16 0x304)) = slots [none, none, some 5] := by decide
theorem test_step_edge : rowsAfter (step ((withStore .poll [some 4]).withFetchWord 16 0x610)) = some 0x10#8 := by decide
theorem test_step_before_reset :
    refusalOf (step (State.beforeReset (fixture .poll) [.ew 0x304#12])) = some .beforeFirstReset := by decide
/-- R61: a slot write of no key event is no line of a trace. -/
theorem test_step_stray : refusalOf (step (withTrace .irq [.ew 0xA0C#12])) = some .notAStepOfTheKeyEvent := by decide
/-- R61: P3 without its line 7: the chord's second write is missing before the next key event, and at the end. -/
theorem test_step_unfinished :
    refusalOf (step { midChord with trace := [.ew 0x22D#12] }) = some .keyEventUnfinished ∧
    refusalOf (step midChord) = some .keyEventUnfinished := by decide
/-- R61: P3 without its line 4, after its line 3: the second write may not stand where the first is due. -/
theorem test_step_missing_write :
    refusalOf (step { firstDue with trace := [.ew 0xA4E#12] }) = some .notAStepOfTheKeyEvent := by decide
/-- P3, lines 2 and 3: the event opens its SETKEY. -/
theorem test_step_written_out :
    (after (step (withTrace .irq [.ew 0x32D#12, .ew 0x9E6#12, .ew 0xA0C#12, .ew 0xA4E#12]))).map (·.line)
      = some (.setkey true 0xE6#8) := by decide
/-- P1, after line 3: line `0x25` low, the others high, and no level on a column line. -/
theorem test_line_levels :
    let s : State := { withStore .poll [none, none, some 5] with row := 0x20#8 }
    lineLevel s 0x25#8 = some .low ∧ lineLevel s 0x24#8 = some .high ∧ lineLevel s 0x12#8 = none := by decide

/-! ## Witnesses: each statement's hypotheses met together -/

/-- A state whose arriving events begin with a written-out press of Minus, its line already taken. -/
def shownTail : State := withTrace .irq [.ew 0x9E6#12, .ew 0xA0C#12, .ew 0x614#12, .ew 0xA4E#12]

theorem witness_DecodeOfEncodeIsTheOperation :
    (Instr.setkey true 0xF7#8).wellFormed = true ∧ (Instr.setkey false 0xFF#8).wellFormed = true ∧
    (Instr.pkReserved false .shift 6).wellFormed = true := by decide
theorem witness_EncodeOfDecodeIsTheWord :
    decode (.ew 0xA6F#12) = .ok (.slotwr 6 (.rowval 7)) ∧ decode (.pk 0x1FE#9) = .ok (.pkReserved true .shift 6) := by decide
theorem witness_ReservedWordsAreRefused :
    (withTrace .poll [.ew 0xFFF#12]).cfg.wellFormed = true ∧ decode (.ew 0xFFF#12) = .error .groupSeven := by decide
theorem witness_WrittenLineReadsBack :
    (Instr.setkey true 0xE6#8).setkeyOperands = some (true, 0xE6#8) ∧ (Instr.slotwr 6 .idle).setkeyOperands = none := by decide
theorem witness_ResetGivesTheResetState : (State.beforeReset (fixture .irq) []).started = false := by decide
theorem witness_ResetIsIdempotent : State.reset.started = true := by decide
theorem witness_StepRunsTheNextEvent :
    (withTrace .irq [.ew 0x304#12]).cfg.wellFormed = true ∧ decode (.ew 0x304#12) = .ok (.keydn 0x04#8) ∧
    (withTrace .irq [.ew 0x304#12]).admission (.keydn 0x04#8) = none := by decide
theorem witness_PortEventsMayAlwaysCome :
    (State.reset.started = true ∧ State.reset.line = .none ∧ State.reset.pend = none) ∧
    (midChord.started = true ∧ midChord.due = some ⟨4, .rowval 6⟩) ∧
    ({ State.reset with line := .setkey true 0xE6#8 } : State).line = .setkey true 0xE6#8 := by decide
theorem witness_StepWithNoEvent :
    (midChord.cfg.wellFormed = true ∧ midChord.trace = [] ∧ midChord.pend ≠ none) ∧
    (firstDue.cfg.wellFormed = true ∧ firstDue.trace = [] ∧ firstDue.line ≠ .none) ∧
    (State.reset.cfg.wellFormed = true ∧ State.reset.trace = [] ∧ State.reset.line = .none ∧ State.reset.pend = none) := by
  decide
theorem witness_OperationBeforeResetRefused :
    (State.beforeReset (fixture .poll) [.ew 0x304#12]).cfg.wellFormed = true ∧
    (State.beforeReset (fixture .poll) [.ew 0x304#12]).started = false ∧
    decode (.ew 0x304#12) = .ok (.keydn 0x04#8) ∧ decode (.ew 0x000#12) = .ok .reset := by decide
theorem witness_IllFormedConfigurationRefused : (State.afterReset badConfig).cfg.wellFormed = false := by decide
theorem witness_StrayInternalLineRefused :
    (withTrace .irq [.ew 0xA0C#12]).cfg.wellFormed = true ∧ (withTrace .irq [.ew 0xA0C#12]).started = true ∧
    decode (.ew 0xA0C#12) = .ok (.slotwr 0 (.rowval 4)) ∧
    (withTrace .irq [.ew 0xA0C#12]).due ≠ some ⟨0, .rowval 4⟩ ∧
    decode (.ew 0x9E6#12) = .ok (.setkey true 0xE6#8) ∧
    (withTrace .irq [.ew 0x9E6#12]).line ≠ .setkey true 0xE6#8 := by decide
theorem witness_KeycodesAboveTheTableAreUnmapped : 0x52 < (0x53#8).toNat ∧ 0x52 < (0xFF#8).toNat := by decide
/-- The chord clause by Up; K3 at the ends of its three ranges. -/
theorem witness_WellFormedTablesAnswerKeys :
    (fixture .poll).wellFormed = true ∧ classify ((fixture .poll).klookup 0x52#8) = .key .fctn 1 2 ∧
    Modifier.key? .fctn = some .fctn ∧ classify ((fixture .poll).mlookup .fctn) = .key .none 6 1 ∧
    (0x03#8).toNat ≤ 0x03 ∧ (0x29 ≤ (0x29#8).toNat ∧ (0x2B#8).toNat ≤ 0x2B) ∧
    (0x39 ≤ (0x39#8).toNat ∧ (0x4E#8).toNat ≤ 0x4E) := by decide
theorem witness_UnmappedKeyIsANoOp :
    State.reset.cfg.klookup 0x29#8 = 0xFF#8 ∧ State.reset.pend = none ∧ State.reset.line = .none ∧
    stepsShown State.reset.trace = false := by decide
/-- The no-mapping clause by Escape, one clause by Enter, `(None, 6, 7)`, the other by Up, `(Fctn, 1, 2)` with Fctn in column 6. -/
theorem witness_KeydnRecordsTheKey :
    classify (State.reset.cfg.klookup 0x28#8) = .key .none 6 7 ∧ State.reset.pend = none ∧
    stepsShown State.reset.trace = false ∧ State.reset.cfg.klookup 0x29#8 = 0xFF#8 ∧
    classify (State.reset.cfg.klookup 0x52#8) = .key .fctn 1 2 ∧
    Modifier.key? .fctn = some .fctn ∧ columnOfBits (kColumn (State.reset.cfg.mlookup .fctn)) = some 6 := by decide
theorem witness_KeyupClearsTheKey :
    classify (State.reset.cfg.klookup 0x2C#8) = .key .none 0 0 ∧ State.reset.pend = none ∧
    stepsShown State.reset.trace = false ∧ State.reset.cfg.klookup 0x53#8 = 0xFF#8 ∧
    classify (State.reset.cfg.klookup 0x2D#8) = .key .shift 4 6 ∧
    Modifier.key? .shift = some .shift ∧ columnOfBits (kColumn (State.reset.cfg.mlookup .shift)) = some 0 := by decide
theorem witness_KeyEventsAlwaysComplete : midChord.cfg.wellFormed = true := by decide
/-- A whole event and one written out. -/
theorem witness_KeyEventFrame :
    (after (exec (.keydn 0x2D#8) State.reset)).isSome = true ∧
    (after (exec (.keydn 0x2D#8) shownTail)).isSome = true := by decide
theorem witness_NoKeyEventInsideAnother :
    (midChord.cfg.wellFormed = true ∧ midChord.started = true ∧ midChord.pend ≠ none) ∧
    decode (.ew 0x304#12) = .ok (.keydn 0x04#8) ∧
    (after (step { midChord with trace := [.ew 0xA4E#12] })).isSome = true ∧
    (after (step { firstDue with trace := [.ew 0x614#12] })).isSome = true := by decide
theorem witness_WrittenOutKeyEventOpensItsSetkey : stepsShown shownTail.trace = true := by decide
theorem witness_KeyEventsAreIdempotent :
    State.reset.cfg.wellFormed = true ∧ State.reset.pend = none ∧ stepsShown State.reset.trace = false := by decide
/-- A and B share column 2; Enter lies in the column of Up's modifier key. -/
theorem witness_LaterPressOverwrites :
    State.reset.cfg.wellFormed = true ∧ State.reset.pend = none ∧ stepsShown State.reset.trace = false ∧
    classify (State.reset.cfg.klookup 0x04#8) = .key .none 2 5 ∧ classify (State.reset.cfg.klookup 0x05#8) = .key .none 2 1 ∧
    classify (State.reset.cfg.klookup 0x28#8) = .key .none 6 7 ∧ classify (State.reset.cfg.klookup 0x52#8) = .key .fctn 1 2 ∧
    Modifier.key? .fctn = some .fctn ∧ classify (State.reset.cfg.mlookup .fctn) = .key .none 6 1 := by decide
/-- T16 and T18: Space, and Right's modifier key, lie in the column of Minus's modifier key. -/
theorem witness_LaterPressOverwrites_modifier :
    classify (State.reset.cfg.klookup 0x2D#8) = .key .shift 4 6 ∧ classify (State.reset.cfg.klookup 0x2C#8) = .key .none 0 0 ∧
    classify (State.reset.cfg.klookup 0x4F#8) = .key .ctrl 5 0 ∧
    Modifier.key? .shift = some .shift ∧ classify (State.reset.cfg.mlookup .shift) = .key .none 0 4 ∧
    Modifier.key? .ctrl = some .ctrl ∧ classify (State.reset.cfg.mlookup .ctrl) = .key .none 0 6 := by decide
theorem witness_ReleaseIsBlind :
    State.reset.cfg.wellFormed = true ∧ State.reset.pend = none ∧ stepsShown State.reset.trace = false ∧
    classify (State.reset.cfg.klookup 0x16#8) = .key .none 5 3 ∧ classify (State.reset.cfg.klookup 0x4F#8) = .key .ctrl 5 0 := by
  decide
theorem witness_ChordedReleaseTakesTheModifier :
    State.reset.cfg.wellFormed = true ∧ State.reset.pend = none ∧ stepsShown State.reset.trace = false ∧
    classify (State.reset.cfg.klookup 0x2D#8) = .key .shift 4 6 ∧ classify (State.reset.cfg.klookup 0x2E#8) = .key .shift 3 0 ∧
    (4 : Column) ≠ 3 ∧ Modifier.key? .shift = some .shift ∧ classify (State.reset.cfg.mlookup .shift) = .key .none 0 4 := by
  decide
theorem witness_ChordWritesCommute :
    State.reset.cfg.wellFormed = true ∧ State.reset.pend = none ∧ State.reset.line = .none ∧
    classify (State.reset.cfg.klookup 0x2D#8) = .key .shift 4 6 ∧ Modifier.key? .shift = some .shift ∧
    classify (State.reset.cfg.mlookup .shift) = .key .none 0 4 := by decide
theorem witness_SetkeyPerformsItsWrites :
    classify 0x00#8 = .key .none 0 0 ∧ State.reset.line ≠ .setkey true 0x00#8 ∧ classify 0xF7#8 = .key .shift 6 7 ∧
    firstDue.line ≠ .setkey true 0xF7#8 ∧
    Modifier.key? .shift = some .shift ∧ columnOfBits (kColumn (State.reset.cfg.mlookup .shift)) = some 0 := by decide
theorem witness_WrittenOutSetkeyOpensItsWrites :
    let s (k : Byte) : State := { withTrace .irq [.ew 0x614#12, .ew 0xA0C#12] with line := .setkey true k }
    (s 0x37#8).line = .setkey true 0x37#8 ∧ classify 0x37#8 = .key .none 6 7 ∧
    (s 0xE6#8).line = .setkey true 0xE6#8 ∧ classify 0xE6#8 = .key .shift 4 6 ∧
    Modifier.key? .shift = some .shift ∧ columnOfBits (kColumn ((s 0xE6#8).cfg.mlookup .shift)) = some 0 := by decide
theorem witness_ReservedKeycodeRefused :
    (0x38#8).extractLsb' 3 3 = 7#3 ∧ 0x38#8 ≠ 0xFF#8 ∧ (0xFE#8).extractLsb' 3 3 = 7#3 ∧ 0xFE#8 ≠ 0xFF#8 := by decide
theorem witness_PackedRowsPerformTheirWrites :
    State.reset.line = .none ∧ columnOfBits (kColumn (State.reset.cfg.mlookup .ctrl)) = some 0 ∧
    columnOfBits (kColumn (State.reset.cfg.mlookup .fctn)) = some 6 ∧
    columnOfBits (kColumn (State.reset.cfg.mlookup .shift)) = some 0 ∧
    (Instr.pkCtrl true 6 7).setkeyOperands = some (true, 0x77#8) ∧ (Instr.pkNomap true).setkeyOperands = some (true, 0xFF#8) := by
  decide
theorem witness_SlotwrWritesItsSlot :
    State.reset.due ≠ some ⟨6, .rowval 7⟩ ∧ (midChord.line = .none ∧ midChord.pend = some ⟨4, .rowval 6⟩) ∧
    firstDue.line = .write ⟨0, .rowval 4⟩ (some ⟨4, .rowval 6⟩) := by decide
theorem witness_SlotsAreIndependent : (5 : Column) ≠ 2 := by decide
theorem witness_PendingOnlyInsideAChord :
    firstDue.pend = none ∧ (after (exec (.slotwr 0 (.rowval 4)) firstDue)).map (·.pend) = some (some ⟨4, .rowval 6⟩) := by decide
theorem witness_PollClosesTheScannedRows : State.reset.cfg.variant = .poll := by decide
theorem witness_EdgeClosesTheColumnsRow :
    midChord.cfg.wellFormed = true ∧ midChord.cfg.variant = .irq ∧ (∀ c, midChord.cfg.columnLine c ≠ 0x0F#8) := by decide
theorem witness_EdgeOfUnknownLineIsANoOp :
    midChord.cfg.variant = .irq ∧ (∀ c, midChord.cfg.columnLine c ≠ 0x17#8) ∧ midChord.rs = .idle := by decide
theorem witness_ColfindIsTheInverseOfTheGeometry : (fixture .irq).wellFormed = true := by decide
theorem witness_AbsentVariantRefused : midChord.cfg.variant = .irq ∧ State.reset.cfg.variant = .poll := by decide
theorem witness_VariantsAgreeOnAScannedColumn : (withStore .poll [none, some 2]).cfg.wellFormed = true := by decide
theorem witness_PseudoOperationsExpand :
    State.reset.cfg.wellFormed = true ∧ State.reset.cfg.variant = .poll ∧ midChord.cfg.variant = .irq ∧
    classify (State.reset.cfg.klookup 0x52#8) = .key .fctn 1 2 ∧
    State.reset.pend = none ∧ stepsShown State.reset.trace = false := by decide
theorem witness_ResponderOnlyDrivesRows :
    (after (exec (.poll 0#7) State.reset)).isSome = true ∧ (after (exec (.edge 0x10#8) midChord)).isSome = true := by decide
theorem witness_RowsHoldBetweenEdges :
    (withTrace .irq [.ew 0x617#12]).cfg.variant = .irq ∧ decode (.ew 0x617#12) = .ok (.edge 0x17#8) ∧
    (∀ c, Instr.edge 0x17#8 ≠ .edge ((withTrace .irq [.ew 0x617#12]).cfg.columnLine c)) ∧
    (after (step (withTrace .irq [.ew 0x617#12]))).isSome = true := by decide
theorem witness_RowLinesCarryTheLatch : State.reset.cfg.wellFormed = true := by decide
theorem witness_PressedLetterShowsInItsColumn :
    State.reset.cfg.wellFormed = true ∧ State.reset.cfg.variant = .poll ∧ State.reset.pend = none ∧
    stepsShown State.reset.trace = false ∧ (∀ c, State.reset.slot c = .idle) ∧
    classify (State.reset.cfg.klookup 0x04#8) = .key .none 2 5 := by decide
theorem witness_OnlyScansAndResetWriteTheRows :
    (after (exec (.keyup 0x2D#8) State.reset)).isSome = true ∧ mayWriteRows (.keyup 0x2D#8) = false := by decide
theorem witness_ConstantSpacesNeverChange :
    (after (exec .reset midChord)).isSome = true ∧ (after (step (withTrace .poll [.ew 0x000#12]))).isSome = true := by decide
theorem witness_LineSetUpStands : (after (exec (.slotwr 6 .idle) State.reset)).isSome = true := by decide
/-- R110: condition (b) cannot arise in a poll instance. -/
theorem test_condition_poll : condition (.edge 0x17#8) State.reset = none := by decide
theorem witness_ConditionsAreNoOps :
    (State.reset.pend = none ∧ State.reset.line = .none ∧ State.reset.rs = .idle ∧ stepsShown State.reset.trace = false ∧
      condition (.keydn 0x53#8) State.reset = some .unmappedKey) ∧
    ((withStore .irq []).cfg.variant = .irq ∧ (∀ c, (withStore .irq []).cfg.columnLine c ≠ 0x17#8) ∧
      condition (.edge 0x17#8) (withStore .irq []) = some .unrecognizedLine) := by decide
theorem witness_ResetMeetsTheInvariant : (fixture .irq).wellFormed = true := by decide
/-- A state of the invariant with the first write of a chord due, and a step from it. -/
theorem witness_EveryStepKeepsTheInvariant :
    let s : State := { firstDue with trace := [.ew 0xA0C#12] }
    (s.cfg.wellFormed = true ∧ s.rs = .idle ∧ s.linesSetUp = true ∧ s.lineFits = true) ∧
    (after (step s)).isSome = true := by decide
theorem witness_MalformedKeycodeIsUnreachable :
    shownTail.cfg.wellFormed = true ∧ shownTail.rs = .idle ∧ shownTail.linesSetUp = true ∧ shownTail.lineFits = true := by
  decide
theorem witness_EveryRunOfPortEventsCompletes :
    (fixture .irq).wellFormed = true ∧ (fixture .irq).variant = .irq ∧
    [Instr.keydn 0x2D#8, .edge 0x10#8, .keyup 0xFF#8, .reset, .edge 0x63#8].length = 5 := by decide
theorem witness_EveryRunOfPortEventsCompletes_ports :
    ∀ i ∈ [Instr.keydn 0x2D#8, .edge 0x10#8, .keyup 0xFF#8, .reset, .edge 0x63#8],
      i = .reset ∨ (∃ h, i = .keydn h) ∨ (∃ h, i = .keyup h) ∨
      ((fixture .irq).variant = .poll ∧ ∃ lv, i = .poll lv) ∨ ((fixture .irq).variant = .irq ∧ ∃ id, i = .edge id) := by
  simp [fixture]
/-- P3, lines 2 to 7, with one scan more before the `SETKEY` line and one before the first write. -/
theorem witness_ScansInsideAChord :
    let s := withTrace .irq [.ew 0x32D#12, .ew 0x612#12, .ew 0x9E6#12, .ew 0x663#12, .ew 0xA0C#12, .ew 0x614#12,
      .ew 0x610#12, .ew 0xA4E#12]
    s.cfg.wellFormed = true ∧ s.started = true ∧ s.pend = none ∧ s.line = .none ∧
    classify (s.cfg.klookup 0x2D#8) = .key .shift 4 6 ∧ Modifier.key? .shift = some .shift ∧
    classify (s.cfg.mlookup .shift) = .key .none 0 4 ∧ s.cfg.variant = .irq ∧
    s.trace = encode (.keydn 0x2D#8) :: ([Instr.edge 0x12#8].map encode ++
      encode (.setkey true (s.cfg.klookup 0x2D#8)) :: ([Instr.edge 0x63#8].map encode ++
        encode (.slotwr 0 (.rowval 4)) ::
          ([Instr.edge 0x14#8, .edge 0x10#8].map encode ++ encode (.slotwr 4 (.rowval 6)) :: []))) := by decide

end Sys2Proof.Tests
end

/-! The statements of the family `00_scope.md`. -/

namespace Sys2Proof.Proofs.Scope

open Sys2Proof Sys2Proof.Machine

/-- Settles O14: a step asks R12's constraints before it looks at the next event, so none is read or run. -/
theorem illFormedConfigurationRefused : Obligations.IllFormedConfigurationRefused := by
  intro s illFormed
  have guardFails : ¬ s.cfg.wellFormed = true := ne_true_of_eq_false illFormed
  unfold step
  rw [if_neg guardFails]

end Sys2Proof.Proofs.Scope

/-! The statements of the family `10_state.md`. First what the shared operations do, said through the lemmas of
the model's layer; then one inversion of `exec`, from which the invariant of a run follows; then the statements. -/

namespace Sys2Proof.Proofs.MachineState

open Sys2Proof Sys2Proof.Machine

/-! ## Slots and the two writes of a chord -/

theorem slot_putSlot_same (s : State) (c : Column) (v : Slot) : (s.putSlot c v).slot c = v :=
  slotOf_set_same s.ks c v

theorem slot_putSlot_ne (s : State) {c c' : Column} (v : Slot) (h : c ≠ c') :
    (s.putSlot c v).slot c' = s.slot c' :=
  slotOf_set_ne s.ks v h

/-- Slot writes of different columns commute as whole states (R18). -/
theorem putSlot_comm (s : State) {a b : Column} (x y : Slot) (h : a ≠ b) :
    (s.putSlot a x).putSlot b y = (s.putSlot b y).putSlot a x := by
  unfold State.putSlot
  simp only [set_comm s.ks x y h]

theorem slot_slotwr_same (s : State) (w : Write) : (s.slotwr w).slot w.col = w.val :=
  slot_putSlot_same (s.retire w) w.col w.val

theorem slot_slotwr_ne (s : State) (w : Write) {c : Column} (h : w.col ≠ c) : (s.slotwr w).slot c = s.slot c := by
  calc (s.slotwr w).slot c = (s.retire w).slot c := slot_putSlot_ne (s.retire w) w.val h
    _ = s.slot c := by rw [State.slot_eq, State.slot_eq, State.retire_ks]

/-- A column no write of the list names keeps its slot. -/
theorem slot_putAll_ne (ws : List Write) (s : State) {c : Column} (h : ∀ w ∈ ws, w.col ≠ c) :
    (s.putAll ws).slot c = s.slot c := by
  induction ws generalizing s with
  | nil => rfl
  | cons w ws ih =>
    calc (s.putAll (w :: ws)).slot c = (s.putSlot w.col w.val).slot c :=
          ih (s.putSlot w.col w.val) fun x hx => h x (List.mem_cons_of_mem w hx)
      _ = s.slot c := slot_putSlot_ne s w.val (h w List.mem_cons_self)

theorem columnOfBits_of_classify {k : Byte} {m : Modifier} {c : Column} {r : Row} (h : classify k = .key m c r) :
    columnOfBits (kColumn k) = some c := by
  rw [classify_eq_key.mp h, kColumn_packByte, columnOfBits_columnBits]

/-! ## The write that is due, and what `SLOTWR` does with it (R24, R77) -/

theorem due_eq_some {s : State} {w : Write} :
    s.due = some w ↔ (s.line = .none ∧ s.pend = some w) ∨ ∃ after, s.line = .write w after := by
  unfold State.due
  cases s.line <;> simp

theorem slotwr_not_due {s : State} {w : Write} (h : s.due ≠ some w) : s.slotwr w = s.putSlot w.col w.val := by
  rw [State.slotwr, retire_not_due h]

theorem slotwr_pend {s : State} {w : Write} (hl : s.line = .none) (hp : s.pend = some w) :
    s.slotwr w = (s.setPend none).putSlot w.col w.val := by
  rw [State.slotwr, retire_pend hl hp]

theorem slotwr_first {s : State} {w : Write} {after : Option Write} (hl : s.line = .write w after) :
    s.slotwr w = ((s.setLine .none).setPend after).putSlot w.col w.val := by
  rw [State.slotwr, retire_first hl]

/-- The three courses of a slot write: not due, the pending one, the first of a written-out key event. -/
theorem slotwr_cases (s : State) (w : Write) :
    (s.slotwr w = s.putSlot w.col w.val) ∨
    (s.line = .none ∧ s.slotwr w = (s.setPend none).putSlot w.col w.val) ∨
    ∃ after, s.line = .write w after ∧ s.slotwr w = ((s.setLine .none).setPend after).putSlot w.col w.val := by
  by_cases hd : s.due = some w
  · obtain ⟨hl, hp⟩ | ⟨after, hl⟩ := due_eq_some.mp hd
    · exact .inr (.inl ⟨hl, slotwr_pend hl hp⟩)
    · exact .inr (.inr ⟨after, hl, slotwr_first hl⟩)
  · exact .inl (slotwr_not_due hd)

/-! ## The slots a key event may write (R76) -/

/-- The columns `EXPAND` writes are the key's and its modifier key's, so a column that is neither is spared. -/
theorem expand_col_ne {cfg : Config} {k : Byte} {p : Bool} {ws : List Write} {c : Column}
    (he : expand cfg k p = some ws)
    (hc : ∀ m ck r, classify k = .key m ck r →
      c ≠ ck ∧ ∀ key, m.key? = some key → columnOfBits (kColumn (cfg.mlookup key)) ≠ some c) :
    ∀ w ∈ ws, w.col ≠ c := by
  obtain ⟨m, ck, r, hk, hws⟩ := expand_cases he
  obtain ⟨hck, hmod⟩ := hc m ck r hk
  obtain ⟨-, rfl⟩ | ⟨key, cm, hm, hcm, rfl⟩ := hws
  · simpa using hck.symm
  · have hne : cm ≠ c := fun e => hmod key hm (e ▸ hcm)
    simpa using ⟨hne, hck.symm⟩

theorem slot_performWrites_ne (writtenOut : Bool) (ws : List Write) (s : State) {c : Column}
    (h : ∀ w ∈ ws, w.col ≠ c) : (performWrites writtenOut ws s).slot c = s.slot c := by
  cases ws with
  | nil => rfl
  | cons w ws =>
    cases writtenOut with
    | true => rfl
    | false => exact slot_putAll_ne (w :: ws) (s.setLine .none) h

theorem slot_setKey_ne {p : Bool} {k : Byte} {s t : State} {c : Column} (h : setKey p k s = .next t)
    (hc : ∀ ws, expand s.cfg k p = some ws → ∀ w ∈ ws, w.col ≠ c) : t.slot c = s.slot c := by
  obtain ⟨-, rfl⟩ | ⟨ws, he, rfl⟩ := setKey_next h
  · rfl
  · exact slot_performWrites_ne _ ws s (hc ws he)

theorem slot_keyEvent_ne {p : Bool} {x : Byte} {s t : State} {c : Column} (h : keyEvent p x s = .next t)
    (hc : ∀ ws, expand s.cfg (s.cfg.klookup x) p = some ws → ∀ w ∈ ws, w.col ≠ c) : t.slot c = s.slot c := by
  cases hs : stepsShown s.trace with
  | true =>
    rw [keyEvent_writtenOut p x hs] at h
    injection h with h
    subst h
    rfl
  | false =>
    rw [keyEvent_whole p x hs] at h
    exact slot_setKey_ne (s := s.setLine .none) h hc

/-! ## What an operation that goes on can be -/

theorem exec_slotwr (c : Column) (v : Slot) (s : State) : exec (.slotwr c v) s = .next (s.slotwr ⟨c, v⟩) := rfl

theorem exec_reset (s : State) : exec .reset s = .next s.initialise := rfl

theorem exec_keyEvent (p : Bool) (h : Byte) (s : State) :
    exec (if p then .keydn h else .keyup h) s = keyEvent p h s := by
  cases p <;> rfl

/-- A `SETKEY` or packed-keycode row that goes on is the `setKey` of its operands; `PK.RESERVED` never does. -/
theorem setKey_of_exec {i : Instr} {p : Bool} {k : Byte} {s t : State} (hi : i.setkeyOperands = some (p, k))
    (h : exec i s = .next t) : setKey p k s = .next t := by
  cases i <;> cases hi
  case pkReserved => cases h
  all_goals exact h

/-- A scan event touches the row latch and the responder only, which it leaves as it was or idle (R100). -/
theorem scan_frame {i : Instr} {s t : State} (hi : isScan i = true) (h : exec i s = .next t) :
    ∃ row rs, t = { s with row := row, rs := rs } ∧ (rs = s.rs ∨ rs = .idle) := by
  cases i with
  | poll lv =>
    obtain ⟨-, rfl⟩ := execPoll_next h
    exact ⟨_, s.rs, rfl, .inl rfl⟩
  | edge id =>
    obtain ⟨-, ⟨c, -, rfl⟩ | ⟨-, rfl⟩⟩ := execEdge_next h
    · exact ⟨_, .idle, rfl, .inr rfl⟩
    · exact ⟨s.row, .idle, rfl, .inr rfl⟩
  | _ => cases hi

/-- The five ways an operation `i` takes a state `s` to a state `t` (R46). -/
inductive GoesOn (i : Instr) (s t : State) : Prop
  | reset (hi : i = .reset) (ht : t = s.initialise)
  | scan (hi : isScan i = true) (row : RowVec) (rs : Responder) (ht : t = { s with row := row, rs := rs })
      (hrs : rs = s.rs ∨ rs = .idle)
  | keyEvent (hi : isKeyEvent i = true) (p : Bool) (h : Byte) (ht : keyEvent p h s = .next t)
  | setKey (p : Bool) (k : Byte) (hi : i.setkeyOperands = some (p, k)) (ht : setKey p k s = .next t)
  | slotwr (c : Column) (v : Slot) (hi : i = .slotwr c v) (ht : t = s.slotwr ⟨c, v⟩)

theorem goesOn_of_scan {i : Instr} {s t : State} (hi : isScan i = true) (h : exec i s = .next t) : GoesOn i s t := by
  obtain ⟨row, rs, ht, hrs⟩ := scan_frame hi h
  exact .scan hi row rs ht hrs

theorem goesOn_of_setkeyOperands {i : Instr} {p : Bool} {k : Byte} {s t : State}
    (hi : i.setkeyOperands = some (p, k)) (h : exec i s = .next t) : GoesOn i s t :=
  .setKey p k hi (setKey_of_exec hi h)

/-- `GoesOn` says everything an operation that goes on can be. -/
theorem goesOn_of_exec {i : Instr} {s t : State} (h : exec i s = .next t) : GoesOn i s t := by
  cases i with
  | reset =>
    rw [exec_reset] at h
    injection h with h
    exact .reset rfl h.symm
  | poll lv => exact goesOn_of_scan rfl h
  | edge id => exact goesOn_of_scan rfl h
  | keyup x => exact .keyEvent rfl false x h
  | keydn x => exact .keyEvent rfl true x h
  | slotwr c v =>
    rw [exec_slotwr] at h
    injection h with h
    exact .slotwr c v rfl h.symm
  | setkey p k => exact goesOn_of_setkeyOperands rfl h
  | pkNomap p => exact goesOn_of_setkeyOperands rfl h
  | pkReserved p m r => exact goesOn_of_setkeyOperands rfl h
  | pkNone p c r => exact goesOn_of_setkeyOperands rfl h
  | pkCtrl p c r => exact goesOn_of_setkeyOperands rfl h
  | pkFctn p c r => exact goesOn_of_setkeyOperands rfl h
  | pkShift p c r => exact goesOn_of_setkeyOperands rfl h

/-! ## What may come now (R24, R61) -/

theorem mayRun_keyEvent {i : Instr} {s : State} (hi : isKeyEvent i = true) : s.mayRun i = !s.keyEventOpen := by
  cases i with
  | keyup h => rfl
  | keydn h => rfl
  | _ => cases hi

theorem mayRun_slotwr {c : Column} {v : Slot} {s : State} : s.mayRun (.slotwr c v) = true ↔ s.due = some ⟨c, v⟩ := by
  simp [State.mayRun]

theorem mayRun_setkeyOperands {i : Instr} {p : Bool} {k : Byte} {s : State} (hi : i.setkeyOperands = some (p, k)) :
    s.mayRun i = true ↔ s.line = .setkey p k := by
  cases i <;> cases hi <;> simp [State.mayRun, Instr.setkeyOperands]

/-- While a key event is under way another one is refused as the unfinished one's (R24, U13). -/
theorem admission_keyEvent_open {i : Instr} {s : State} (hs : s.started = true) (hi : isKeyEvent i = true)
    (ho : s.keyEventOpen = true) : s.admission i = some .keyEventUnfinished := by
  have hm : s.mayRun i = false := by rw [mayRun_keyEvent hi, ho]; rfl
  simp [State.admission, hs, hi, hm]

/-! ## The step on an event -/

section event

variable {s : State} {e : Entry} {rest : List Entry} {i : Instr}
  (hw : s.cfg.wellFormed = true) (ht : s.trace = e :: rest) (hd : decode e = .ok i)

include hw ht hd

theorem step_admitted (ha : s.admission i = none) : step s = exec i (s.setTrace rest) := by
  simp [step, hw, ht, hd, ha]

theorem step_not_admitted {r : Refusal} (ha : s.admission i = some r) : step s = .refused r := by
  simp [step, hw, ht, hd, ha]

/-- A step on an event that goes on runs the event, which may come now. -/
theorem step_event_next {t : State} (h : step s = .next t) :
    s.mayRun i = true ∧ exec i (s.setTrace rest) = .next t := by
  cases ha : s.admission i with
  | none => exact ⟨mayRun_of_admission ha, by rw [← step_admitted hw ht hd ha, h]⟩
  | some r =>
    rw [step_not_admitted hw ht hd ha] at h
    cases h

end event

/-! ## The open line fits its key event (R24, R71, R75) -/

theorem lineFits_of_line_none {s : State} (h : s.line = .none) : s.lineFits = true := by
  simp [State.lineFits, h]

/-- A whole `setKey` leaves no line open. -/
theorem setKey_whole_line {p : Bool} {k : Byte} {s t : State} (hl : s.line ≠ .setkey p k)
    (h : setKey p k s = .next t) : t.line = .none := by
  obtain ⟨-, rfl⟩ | ⟨ws, -, rfl⟩ := setKey_next h
  · rfl
  · rw [beq_eq_false_iff_ne.mpr hl]
    cases ws with
    | nil => rfl
    | cons w ws => exact State.putAll_line (w :: ws) (s.setLine .none)

/-- The `SETKEY` line of a code of the table opens one write, or two writes of different slots (R71). -/
theorem setKey_line_lineFits {p : Bool} {k : Byte} {s t : State} (hw : s.cfg.wellFormed = true)
    (hf : s.lineFits = true) (hl : s.line = .setkey p k) (h : setKey p k s = .next t) : t.lineFits = true := by
  obtain ⟨hp, hcode⟩ := lineFits_setkey hf hl
  obtain ⟨-, rfl⟩ | ⟨ws, he, rfl⟩ := setKey_next h
  · exact lineFits_of_line_none rfl
  · obtain ⟨m, c, r, hk, hws⟩ := expand_cases he
    have hmem : k ∈ s.cfg.keymap.toList := by
      refine hcode.resolve_left fun hn => ?_
      rw [hn, classify_nomapByte] at hk
      cases hk
    rw [beq_iff_eq.mpr hl]
    obtain ⟨-, rfl⟩ | ⟨key, cm, hm, hcm, rfl⟩ := hws
    · simp [performWrites_writtenOut, State.lineFits, hp]
    · have hne : cm ≠ c := Config.chord_columns_differ hw hmem hk hm hcm
      simp [performWrites_writtenOut, State.lineFits, hp, hne]

theorem keyEvent_lineFits {p : Bool} {x : Byte} {s t : State} (hp : s.pend = none) (h : keyEvent p x s = .next t) :
    t.lineFits = true := by
  cases hs : stepsShown s.trace with
  | true =>
    rw [keyEvent_writtenOut p x hs] at h
    injection h with h
    subst h
    simpa [State.lineFits, hp] using s.cfg.klookup_mem x
  | false =>
    rw [keyEvent_whole p x hs] at h
    exact lineFits_of_line_none (setKey_whole_line (by simp) h)

theorem slotwr_lineFits {s : State} (w : Write) (hf : s.lineFits = true) : (s.slotwr w).lineFits = true := by
  obtain h | ⟨hl, h⟩ | ⟨after, -, h⟩ := slotwr_cases s w
  · rw [h]; exact hf
  · rw [h]; exact lineFits_of_line_none hl
  · rw [h]; exact lineFits_of_line_none rfl

/-! ## The invariant of a run -/

/-- `RESET` sets the lines up at first, and leaves what the first one set up (R103, R104). -/
theorem initialise_linesSetUp {s : State} (h : s.linesSetUp = true) : s.initialise.linesSetUp = true := by
  cases hs : s.started with
  | false => simp [State.linesSetUp, hs]
  | true =>
    obtain ⟨-, hreg⟩ : s.dirs = s.cfg.lineDirs ∧ s.edgeReg = s.cfg.edgeSources := by
      simpa [State.linesSetUp, hs] using h
    simpa [State.linesSetUp, hs] using hreg

theorem initialise_inv {s : State} (hw : s.cfg.wellFormed = true) (hset : s.linesSetUp = true) : s.initialise.Inv :=
  ⟨hw, rfl, initialise_linesSetUp hset, lineFits_of_line_none rfl⟩

/-- The translator's frame leaves of the invariant only that the open line fits. -/
theorem inv_of_translator_frame {s t : State} (hi : s.Inv)
    (ht : ∃ ks line pend, t = { s with ks := ks, line := line, pend := pend }) (hf : t.lineFits = true) : t.Inv := by
  obtain ⟨hw, hrs, hset, -⟩ := hi
  obtain ⟨ks, line, pend, rfl⟩ := ht
  exact ⟨hw, hrs, hset, hf⟩

theorem inv_setTrace {s : State} (es : List Entry) (hi : s.Inv) : (s.setTrace es).Inv := hi

/-- An operation that may come now keeps the invariant. -/
theorem exec_keeps_inv {i : Instr} {s t : State} (hi : s.Inv) (hm : s.mayRun i = true) (h : exec i s = .next t) :
    t.Inv := by
  have ⟨hw, hrs, hset, hf⟩ := hi
  cases goesOn_of_exec h with
  | reset _ ht => exact ht ▸ initialise_inv hw hset
  | scan _ row rs ht hrs' =>
    have hidle : rs = .idle := hrs'.elim (·.trans hrs) id
    subst ht hidle
    exact ⟨hw, rfl, hset, hf⟩
  | keyEvent hk p x ht =>
    have hopen : s.keyEventOpen = false := by simpa [mayRun_keyEvent hk] using hm
    obtain ⟨-, hp⟩ := State.keyEventOpen_eq_false.mp hopen
    obtain ⟨ks, line, e⟩ := keyEvent_frame ht
    exact inv_of_translator_frame hi ⟨ks, line, s.pend, e⟩ (keyEvent_lineFits hp ht)
  | setKey p k hk ht =>
    have hl : s.line = .setkey p k := (mayRun_setkeyOperands hk).mp hm
    obtain ⟨ks, line, e⟩ := setKey_frame ht
    exact inv_of_translator_frame hi ⟨ks, line, s.pend, e⟩ (setKey_line_lineFits hw hf hl ht)
  | slotwr c v _ ht =>
    subst ht
    exact inv_of_translator_frame hi ⟨_, _, _, slotwr_frame ⟨c, v⟩ s⟩ (slotwr_lineFits ⟨c, v⟩ hf)

/-- Settles O56: a step is a wait, which changes nothing, or an operation that may come now. -/
theorem everyStepKeepsTheInvariant : Obligations.EveryStepKeepsTheInvariant := by
  intro s t hi h
  obtain ⟨-, ⟨-, -, rfl⟩ | ⟨e, rest, i, -, -, ha, hx⟩⟩ := step_cases h
  · exact hi
  · exact exec_keeps_inv (inv_setTrace rest hi) (mayRun_of_admission (s := s) ha) hx

/-- Settles O55: both states are what `RESET` makes of a state before reset, where no line set-up is claimed yet (R127). -/
theorem resetMeetsTheInvariant : Obligations.ResetMeetsTheInvariant := by
  have afterFirstReset (cfg : Config) (es : List Entry) (hw : cfg.wellFormed = true) :
      (State.beforeReset cfg es).initialise.Inv :=
    initialise_inv hw rfl
  exact ⟨afterFirstReset (fixture .poll) [] (by decide), fun cfg es hw => ⟨_, exec_reset _, afterFirstReset cfg es hw⟩⟩

/-! ## Key events -/

/-- Settles O22: the frame of a key event, and the columns `EXPAND` names. -/
theorem keyEventFrame : Obligations.KeyEventFrame := by
  intro s t h p hx
  rw [exec_keyEvent] at hx
  obtain ⟨ks, line, rfl⟩ := keyEvent_frame hx
  exact ⟨rfl, rfl, rfl, rfl, rfl, rfl, rfl, rfl, fun c hc => slot_keyEvent_ne hx fun ws he => expand_col_ne he hc⟩

/-- What may come while a key event is under way (R24, R61). -/
theorem mayRun_open_cases {i : Instr} {s : State} (ho : s.keyEventOpen = true) (hm : s.mayRun i = true) :
    i = .reset ∨ (∃ lv, i = .poll lv) ∨ (∃ id, i = .edge id) ∨
      (∃ w, s.due = some w ∧ i = .slotwr w.col w.val) ∨
      ∃ p k, i.setkeyOperands = some (p, k) ∧ s.line = .setkey p k := by
  have noKeyEvent (hi : isKeyEvent i = true) : False := by simp [mayRun_keyEvent hi, ho] at hm
  have setkeyLine (p : Bool) (k : Byte) (hi : i.setkeyOperands = some (p, k)) :
      ∃ p k, i.setkeyOperands = some (p, k) ∧ s.line = .setkey p k :=
    ⟨p, k, hi, (mayRun_setkeyOperands hi).mp hm⟩
  cases i with
  | reset => exact .inl rfl
  | poll lv => exact .inr (.inl ⟨lv, rfl⟩)
  | edge id => exact .inr (.inr (.inl ⟨id, rfl⟩))
  | keyup h => exact (noKeyEvent rfl).elim
  | keydn h => exact (noKeyEvent rfl).elim
  | slotwr c v => exact .inr (.inr (.inr (.inl ⟨⟨c, v⟩, mayRun_slotwr.mp hm, rfl⟩)))
  | _ => exact .inr (.inr (.inr (.inr (setkeyLine _ _ rfl))))

/-- Settles O23: the admission check refuses the key event, and passes nothing but what R24 lists. -/
theorem noKeyEventInsideAnother : Obligations.NoKeyEventInsideAnother := by
  intro s e rest i hw hs ht hd hunder
  have ho : s.keyEventOpen = true := State.keyEventOpen_eq_true.mpr hunder
  constructor
  · intro h hi
    have hk : isKeyEvent i = true := by obtain rfl | rfl := hi <;> rfl
    exact step_not_admitted hw ht hd (admission_keyEvent_open hs hk ho)
  · intro t hx
    exact mayRun_open_cases ho (step_event_next hw ht hd hx).1

/-- Settles O29: neither write is due, so each is a plain slot write, and the columns differ (R71). -/
theorem chordWritesCommute : Obligations.ChordWritesCommute := by
  intro s h m key c cm r rm v vm hw hp hl hk hm hkm
  have hne : cm ≠ c := Config.lookup_columns_differ hw hk hm (columnOfBits_of_classify hkm)
  have plain (u : State) (hlu : u.line = .none) (hpu : u.pend = none) (a : Column) (x : Slot) :
      exec (.slotwr a x) u = .next (u.putSlot a x) := by
    rw [exec_slotwr, slotwr_not_due (by simp [State.due, hlu, hpu])]
  exact ⟨_, _, _, _, plain s hl hp cm vm, plain (s.putSlot cm vm) hl hp c v, plain s hl hp c v,
    plain (s.putSlot c v) hl hp cm vm, putSlot_comm s vm v hne⟩

/-! ## Internal operations -/

/-- Settles O35: the three courses of a slot write. -/
theorem slotwrWritesItsSlot : Obligations.SlotwrWritesItsSlot := by
  intro s c v
  refine ⟨fun hd => ?_, fun hl hp => ?_, fun after hl => ?_⟩
  · rw [exec_slotwr, slotwr_not_due hd]; rfl
  · rw [exec_slotwr, slotwr_pend hl hp]; rfl
  · rw [exec_slotwr, slotwr_first hl]; rfl

/-- Settles O36: a slot write read back at its own column and at another. -/
theorem slotsAreIndependent : Obligations.SlotsAreIndependent := by
  intro s c v
  exact ⟨_, exec_slotwr c v s, slot_slotwr_same s ⟨c, v⟩, fun c' hne => slot_slotwr_ne s ⟨c, v⟩ hne.symm⟩

/-- Settles O37: all but the first `SLOTWR` of a written-out key event keep `PEND` or clear it. -/
theorem pendingOnlyInsideAChord : Obligations.PendingOnlyInsideAChord := by
  intro i s t w h hs ht
  have kept (e : t.pend = s.pend) : False := by rw [e, hs] at ht; cases ht
  cases goesOn_of_exec h with
  | reset _ e => subst e; cases ht
  | scan _ row rs e _ => exact (kept (by rw [e])).elim
  | keyEvent _ p x hx =>
    obtain ⟨ks, line, e⟩ := keyEvent_frame hx
    exact (kept (by rw [e])).elim
  | setKey p k _ hx =>
    obtain ⟨ks, line, e⟩ := setKey_frame hx
    exact (kept (by rw [e])).elim
  | slotwr c v hi e =>
    obtain h' | ⟨-, h'⟩ | ⟨after, hl, h'⟩ := slotwr_cases s ⟨c, v⟩
    · exact (kept (by rw [e, h', State.putSlot_pend])).elim
    · rw [e, h'] at ht; cases ht
    · have hafter : after = some w := by rw [e, h'] at ht; exact ht
      exact ⟨c, v, hi, hafter ▸ hl⟩

/-- Settles O32: the `SETKEY` line of `EXPAND`'s one write, and of its two. -/
theorem writtenOutSetkeyOpensItsWrites : Obligations.WrittenOutSetkeyOpensItsWrites := by
  intro s p k m c r hk hl
  constructor
  · rintro rfl
    exact setKey_line hl (expand_unchorded p hk rfl)
  · intro key cm hm hcm
    exact setKey_line hl (expand_chorded p hk hm hcm)

/-! ## Scans and row lines -/

/-- Settles O46: the frame of a scan event. -/
theorem responderOnlyDrivesRows : Obligations.ResponderOnlyDrivesRows := by
  intro s t i hi h
  have hscan : isScan i = true := by obtain ⟨_, rfl⟩ | ⟨_, rfl⟩ := hi <;> rfl
  obtain ⟨row, rs, rfl, hrs⟩ := scan_frame hscan h
  exact ⟨rfl, rfl, rfl, rfl, rfl, rfl, rfl, rfl, hrs⟩

/-- Settles O48: a row line leads back to its row, and a column line to none (R35). -/
theorem rowLinesCarryTheLatch : Obligations.RowLinesCarryTheLatch := by
  intro s hw
  refine ⟨fun r => ?_, fun c => ?_⟩
  · rw [lineLevel, Config.rowfind_rowLineOf hw r]; rfl
  · have hnone : s.cfg.rowfind (s.cfg.columnLine c) = none :=
      Config.rowfind_none.mpr fun r => (Config.columnLine_ne_rowLineOf hw c r).symm
    rw [lineLevel, hnone]; rfl

/-- Settles O51: the translator's operations leave the row latch. -/
theorem onlyScansAndResetWriteTheRows : Obligations.OnlyScansAndResetWriteTheRows := by
  intro i s t h hi
  obtain ⟨ks, line, pend, rfl⟩ := translator_frame h hi
  rfl

/-! ## Reset and the step -/

/-- Settles O9: `RESET` before the first one assigns every field but the configuration and the trace. -/
theorem firstResetLeavesTheResetValues : Obligations.FirstResetLeavesTheResetValues :=
  ⟨fun _ _ => ⟨exec_reset _, slotOf_replicate .idle, rfl, rfl, rfl, rfl⟩, rfl⟩

/-- Settles O10: the step once each of its guards is passed. -/
theorem stepRunsTheNextEvent : Obligations.StepRunsTheNextEvent :=
  fun _ _ _ _ hw ht hd ha => step_admitted hw ht hd ha

/-- Settles O11: in a run what may come now is admitted. -/
theorem portEventsMayAlwaysCome : Obligations.PortEventsMayAlwaysCome := by
  intro s hs
  have admitted {i : Instr} : s.mayRun i = true → s.admission i = none := (admission_eq_none hs).mpr
  refine ⟨admitted rfl, fun _ => admitted rfl, fun _ => admitted rfl, fun hl hp h => ?_, fun w hd => ?_, fun p k hl => ?_⟩
  · have hclosed : s.keyEventOpen = false := State.keyEventOpen_eq_false.mpr ⟨hl, hp⟩
    exact ⟨admitted (by rw [mayRun_keyEvent rfl, hclosed]; rfl), admitted (by rw [mayRun_keyEvent rfl, hclosed]; rfl)⟩
  · exact admitted (mayRun_slotwr.mpr hd)
  · exact admitted ((mayRun_setkeyOperands rfl).mpr hl)

end Sys2Proof.Proofs.MachineState

/-! The statements of the family `20_memory.md`: the levels of the column lines, the constant spaces, and a chord
whose lines have scans among them. -/

namespace Sys2Proof.Proofs.Memory

open Sys2Proof Sys2Proof.Machine Sys2Proof.Proofs.MachineState

/-! ## The levels of the column lines (R38, R55) -/

/-- The loop of `sampleColumns` over any columns: the bit was set before, or the column is read and its line is high. -/
theorem sampleColumns_fold (cfg : Config) (readLine : LineId → Level) (c : Column) (cs : List Column) (lv : Levels) :
    (cs.foldl (fun lv c => if readLine (cfg.columnLine c) = .high then lv ||| onehot7 c else lv) lv).getLsbD c.val
        = true
      ↔ lv.getLsbD c.val = true ∨ (c ∈ cs ∧ readLine (cfg.columnLine c) = .high) := by
  induction cs generalizing lv with
  | nil => simp
  | cons a cs ih =>
    rw [List.foldl_cons, ih]
    by_cases hhigh : readLine (cfg.columnLine a) = .high
    · rw [if_pos hhigh, BitVec.getLsbD_or, Bool.or_eq_true, onehot7_getLsbD]
      by_cases hca : c = a
      · simp [hca, hhigh]
      · simp [hca]
    · rw [if_neg hhigh]
      refine or_congr_right (and_congr_left fun hc => ?_)
      have hne : c ≠ a := fun e => hhigh (e ▸ hc)
      simp [hne]

/-- Settles O49: the loop starts from all low and reads every column. -/
theorem sampledLevelsAreTheColumnLevels : Obligations.SampledLevelsAreTheColumnLevels := by
  intro cfg readLine c
  rw [sampleColumns, sampleColumns_fold]
  simp [mem_allColumns]

/-! ## The constant spaces (R33) -/

theorem exec_cfg {i : Instr} {s t : State} (h : exec i s = .next t) : t.cfg = s.cfg := by
  cases goesOn_of_exec h with
  | reset _ ht => rw [ht, State.initialise_cfg]
  | scan _ row rs ht _ => rw [ht]
  | keyEvent _ p x hx =>
    obtain ⟨ks, line, rfl⟩ := keyEvent_frame hx
    rfl
  | setKey p k _ hx =>
    obtain ⟨ks, line, rfl⟩ := setKey_frame hx
    rfl
  | slotwr c v _ ht => rw [ht, slotwr_frame]

/-- Settles O52: a step is a wait, which changes nothing, or an operation. -/
theorem constantSpacesNeverChange : Obligations.ConstantSpacesNeverChange := by
  refine ⟨fun i s t h => exec_cfg h, fun s t h => ?_⟩
  obtain ⟨-, ⟨-, -, rfl⟩ | ⟨e, rest, i, -, -, -, hx⟩⟩ := step_cases h
  · rfl
  · rw [exec_cfg hx, State.setTrace_cfg]

/-! ## The written lines of a key event decode to its steps (R48) -/

theorem decode_encode_scan {i : Instr} (hi : isScan i = true) : decode (encode i) = .ok i := by
  cases i with
  | poll lv => revert lv; decide
  | edge id => revert id; decide
  | _ => cases hi

theorem decode_encode_keyEvent (p : Bool) (h : Byte) :
    decode (encode (if p then .keydn h else .keyup h)) = .ok (if p then .keydn h else .keyup h) := by
  revert p h; decide

theorem decode_encode_setkey (p : Bool) (k : Byte) : decode (encode (.setkey p k)) = .ok (.setkey p k) := by
  revert p k; decide

theorem decode_encode_slotwr (c : Column) (v : Slot) : decode (encode (.slotwr c v)) = .ok (.slotwr c v) := by
  cases v with
  | idle => revert c; decide
  | rowval r => revert c r; decide

/-- A key event's steps are written out when its `SETKEY` line follows, after any scans (R43 point 4, R61). -/
theorem stepsShown_scans_setkey {is : List Instr} (hscan : ∀ i ∈ is, isScan i = true) (p : Bool) (k : Byte)
    (rest : List Entry) : stepsShown (is.map encode ++ encode (.setkey p k) :: rest) = true := by
  induction is with
  | nil => simp [stepsShown, entryIs, decode_encode_setkey, isScan, isSetkeyLine, Instr.setkeyOperands]
  | cons i is ih =>
    obtain ⟨hi, his⟩ := List.forall_mem_cons.mp hscan
    simp [stepsShown, entryIs, decode_encode_scan hi, hi, ih his]

/-! ## Runs that go on, one after the other -/

theorem run_trans {M : Host.Core} {j k : Nat} {s t : M.State} {o : Host.Outcome M.State M.Fault M.Refusal}
    (hj : M.run j s = .next t) (hk : M.run k t = o) : M.run (j + k) s = o := by
  induction j generalizing s with
  | zero =>
    injection hj with hj
    rw [hj, Nat.zero_add, hk]
  | succ j ih =>
    rw [Nat.succ_add]
    unfold Host.Core.run at hj ⊢
    cases hstep : M.step s with
    | next u =>
      rw [hstep] at hj
      exact ih hj
    | fault r => rw [hstep] at hj; cases hj
    | refused r => rw [hstep] at hj; cases hj

theorem run_one {s t : State} (h : step s = .next t) : Host.Core.run Sys2Proof.core 1 s = .next t := by
  rw [run_succ h]; rfl

/-! ## Scans, and a line after them -/

/-- A scan event of the responder variant `v` (R62). -/
def ScanOf (v : Variant) (i : Instr) : Prop :=
  (v = .poll ∧ ∃ lv, i = .poll lv) ∨ (v = .irq ∧ ∃ id, i = .edge id)

theorem ScanOf.isScan {v : Variant} {i : Instr} (h : ScanOf v i) : isScan i = true := by
  obtain ⟨-, lv, rfl⟩ | ⟨-, id, rfl⟩ := h <;> rfl

theorem exec_poll {s : State} (lv : Levels) (hv : s.cfg.variant = .poll) :
    exec (.poll lv) s = .next (s.driveRows (rowsel (scannedColumns lv) s.ks)) := by
  simp [exec, execPoll, hv]

theorem exec_edge {s : State} (id : LineId) (hv : s.cfg.variant = .irq) :
    exec (.edge id) s = .next (service id s.enterServicing).leaveServicing := by
  simp [exec, execEdge, hv]

/-- A scan event of the variant present goes on, and touches the row latch and the responder only (R62, R100). -/
theorem exec_scanOf {i : Instr} {s : State} (h : ScanOf s.cfg.variant i) :
    ∃ row rs, exec i s = .next { s with row := row, rs := rs } := by
  have goesOn : ∃ t, exec i s = .next t := by
    obtain ⟨hv, lv, rfl⟩ | ⟨hv, id, rfl⟩ := h
    · exact ⟨_, exec_poll lv hv⟩
    · exact ⟨_, exec_edge id hv⟩
  obtain ⟨t, ht⟩ := goesOn
  obtain ⟨row, rs, rfl, -⟩ := scan_frame h.isScan ht
  exact ⟨row, rs, ht⟩

/-- What the translator sees in a run: the tables, the store, `PEND`, the line due and the events to arrive. The row
latch, the responder and the line set-up are left open. -/
structure TranslatorAt (cfg : Config) (ks : Vector Slot 7) (pend : Option Write) (line : ShownLine)
    (trace : List Entry) (s : State) : Prop where
  cfg : s.cfg = cfg
  started : s.started = true
  ks : s.ks = ks
  pend : s.pend = pend
  line : s.line = line
  trace : s.trace = trace

section line

variable {cfg : Config} {ks : Vector Slot 7} {pend : Option Write} {line : ShownLine} {rest : List Entry} {s : State}
  (hw : cfg.wellFormed = true)

include hw

/-- A step of a run on an operation that may come is that operation (R21). -/
theorem step_of_mayRun {i : Instr} (at_s : TranslatorAt cfg ks pend line (encode i :: rest) s)
    (hd : decode (encode i) = .ok i) (hm : s.mayRun i = true) : step s = exec i (s.setTrace rest) :=
  step_admitted (at_s.cfg ▸ hw) at_s.trace hd ((admission_eq_none at_s.started).mpr hm)

/-- A scan event of the variant present goes on and leaves the translator as it was (R24, R119). -/
theorem step_scan {i : Instr} (hi : ScanOf cfg.variant i) (at_s : TranslatorAt cfg ks pend line (encode i :: rest) s) :
    ∃ t, step s = .next t ∧ TranslatorAt cfg ks pend line rest t := by
  have hm : s.mayRun i = true := by obtain ⟨-, lv, rfl⟩ | ⟨-, id, rfl⟩ := hi <;> rfl
  obtain ⟨row, rs, hx⟩ := exec_scanOf (s := s.setTrace rest) (at_s.cfg ▸ hi)
  have hstep := (step_of_mayRun hw at_s (decode_encode_scan hi.isScan) hm).trans hx
  exact ⟨_, hstep, at_s.cfg, at_s.started, at_s.ks, at_s.pend, at_s.line, rfl⟩

theorem run_scans {is : List Instr} (hscan : ∀ i ∈ is, ScanOf cfg.variant i)
    (at_s : TranslatorAt cfg ks pend line (is.map encode ++ rest) s) :
    ∃ t, Host.Core.run Sys2Proof.core is.length s = .next t ∧ TranslatorAt cfg ks pend line rest t := by
  induction is generalizing s with
  | nil => exact ⟨s, rfl, at_s⟩
  | cons i is ih =>
    obtain ⟨hi, his⟩ := List.forall_mem_cons.mp hscan
    obtain ⟨t, hstep, at_t⟩ := step_scan hw hi at_s
    obtain ⟨u, hrun, at_u⟩ := ih his at_t
    exact ⟨u, (run_succ hstep).trans hrun, at_u⟩

/-- A key event whose steps are written out opens its `SETKEY` line (R61). -/
theorem run_keyEvent {p : Bool} {h : Byte} (hshown : stepsShown rest = true)
    (at_s : TranslatorAt cfg ks none .none (encode (if p then .keydn h else .keyup h) :: rest) s) :
    ∃ t, Host.Core.run Sys2Proof.core 1 s = .next t ∧
      TranslatorAt cfg ks none (.setkey p (cfg.klookup h)) rest t := by
  have hm : s.mayRun (if p then .keydn h else .keyup h) = true := by
    rw [mayRun_keyEvent (by cases p <;> rfl), State.keyEventOpen_eq_false.mpr ⟨at_s.line, at_s.pend⟩]; rfl
  have hstep := step_of_mayRun hw at_s (decode_encode_keyEvent p h) hm
  rw [exec_keyEvent, keyEvent_writtenOut (s := s.setTrace rest) p h hshown] at hstep
  exact ⟨_, run_one hstep, at_s.cfg, at_s.started, at_s.ks, at_s.pend, by simp [at_s.cfg], rfl⟩

/-- The `SETKEY` line of a chord opens the first of its two writes (R61, R75). -/
theorem run_setkey {p : Bool} {k : Byte} {w w' : Write} (he : expand cfg k p = some [w, w'])
    (at_s : TranslatorAt cfg ks pend (.setkey p k) (encode (.setkey p k) :: rest) s) :
    ∃ t, Host.Core.run Sys2Proof.core 1 s = .next t ∧ TranslatorAt cfg ks pend (.write w (some w')) rest t := by
  have hm : s.mayRun (.setkey p k) = true := (mayRun_setkeyOperands rfl).mpr at_s.line
  have hx := setKey_line (s := s.setTrace rest) at_s.line (at_s.cfg.symm ▸ he)
  have hstep := (step_of_mayRun hw at_s (decode_encode_setkey p k) hm).trans hx
  exact ⟨_, run_one hstep, at_s.cfg, at_s.started, at_s.ks, at_s.pend, rfl, rfl⟩

/-- The first `SLOTWR` line of a key event writes its slot, and the write after it becomes `PEND` (R24, R77). -/
theorem run_first_write {w : Write} {after : Option Write}
    (at_s : TranslatorAt cfg ks pend (.write w after) (encode (.slotwr w.col w.val) :: rest) s) :
    ∃ t, Host.Core.run Sys2Proof.core 1 s = .next t ∧
      TranslatorAt cfg (ks.set w.col.val w.val w.col.isLt) after .none rest t := by
  have hm := mayRun_slotwr.mpr (due_eq_some.mpr (.inr ⟨after, at_s.line⟩))
  have hstep := step_of_mayRun hw at_s (decode_encode_slotwr w.col w.val) hm
  rw [exec_slotwr, slotwr_first (s := s.setTrace rest) at_s.line] at hstep
  exact ⟨_, run_one hstep, at_s.cfg, at_s.started, by simp [at_s.ks], rfl, rfl, rfl⟩

/-- The second `SLOTWR` line of a chord performs the pending write (R24, R77). -/
theorem run_pending_write {w : Write}
    (at_s : TranslatorAt cfg ks (some w) .none (encode (.slotwr w.col w.val) :: rest) s) :
    ∃ t, Host.Core.run Sys2Proof.core 1 s = .next t ∧
      TranslatorAt cfg (ks.set w.col.val w.val w.col.isLt) none .none rest t := by
  have hm := mayRun_slotwr.mpr (due_eq_some.mpr (.inl ⟨at_s.line, at_s.pend⟩))
  have hstep := step_of_mayRun hw at_s (decode_encode_slotwr w.col w.val) hm
  rw [exec_slotwr, slotwr_pend (s := s.setTrace rest) at_s.line at_s.pend] at hstep
  exact ⟨_, run_one hstep, at_s.cfg, at_s.started, by simp [at_s.ks], rfl, at_s.line, rfl⟩

/-- A chord written out with scans among its lines, run up to its second write: the first write is performed, the
second is pending (R24, R79). -/
theorem run_chord_to_second_write {p : Bool} {h : Byte} {w w' : Write} {xs ys zs : List Instr}
    (he : expand cfg (cfg.klookup h) p = some [w, w']) (hxs : ∀ i ∈ xs, ScanOf cfg.variant i)
    (hys : ∀ i ∈ ys, ScanOf cfg.variant i) (hzs : ∀ i ∈ zs, ScanOf cfg.variant i)
    (at_s : TranslatorAt cfg ks none .none
      (encode (if p then .keydn h else .keyup h) :: (xs.map encode ++ encode (.setkey p (cfg.klookup h)) ::
        (ys.map encode ++ encode (.slotwr w.col w.val) :: (zs.map encode ++ rest)))) s) :
    ∃ u, Host.Core.run Sys2Proof.core (3 + xs.length + ys.length + zs.length) s = .next u ∧
      TranslatorAt cfg (ks.set w.col.val w.val w.col.isLt) (some w') .none rest u := by
  have hshown := stepsShown_scans_setkey (fun i hi => (hxs i hi).isScan) p (cfg.klookup h)
    (ys.map encode ++ encode (.slotwr w.col w.val) :: (zs.map encode ++ rest))
  obtain ⟨_, opened, at₁⟩ := run_keyEvent hw hshown at_s
  obtain ⟨_, scanned, at₂⟩ := run_scans hw hxs at₁
  obtain ⟨_, setkey, at₃⟩ := run_setkey hw he at₂
  obtain ⟨_, scanned', at₄⟩ := run_scans hw hys at₃
  obtain ⟨_, written, at₅⟩ := run_first_write hw at₄
  obtain ⟨u, scanned'', at_u⟩ := run_scans hw hzs at₅
  have run := run_trans opened <| run_trans scanned <| run_trans setkey <| run_trans scanned' <|
    run_trans written scanned''
  have steps : 3 + xs.length + ys.length + zs.length =
      1 + (xs.length + (1 + (ys.length + (1 + zs.length)))) := by omega
  exact ⟨u, steps ▸ run, at_u⟩

end line

/-! ## A chord's two writes -/

theorem expand_chord {cfg : Config} {k : Byte} {m : Modifier} {key : ModKey} {c cm : Column} {r rm : Row} (p : Bool)
    (hk : classify k = .key m c r) (hm : m.key? = some key) (hkm : classify (cfg.mlookup key) = .key .none cm rm) :
    expand cfg k p = some [⟨cm, pressValue p rm⟩, ⟨c, pressValue p r⟩] := by
  have hrow : kRow (cfg.mlookup key) = rm := by rw [classify_eq_key.mp hkm, kRow_packByte]
  rw [expand_chorded p hk hm (columnOfBits_of_classify hkm), hrow]

/-- A key event run as a whole performs the writes of `EXPAND` in their order (R75). -/
theorem exec_keyEvent_whole {s : State} {p : Bool} {h : Byte} {w : Write} {ws : List Write}
    (he : expand s.cfg (s.cfg.klookup h) p = some (w :: ws)) (hshown : stepsShown s.trace = false) :
    exec (if p then .keydn h else .keyup h) s = .next ((s.setLine .none).putAll (w :: ws)) := by
  rw [exec_keyEvent, keyEvent_whole p h hshown, setKey_expand (s := s.setLine .none) he]
  rfl

/-- Settles O59: the scans among the lines leave the translator as it was, so the lines perform the two writes the
whole event performs. -/
theorem scansInsideAChord : Obligations.ScansInsideAChord := by
  intro s h p m key c cm r rm xs ys zs rest hw hs hp hl hk hm hkm hscan ht
  have he := expand_chord p hk hm hkm
  have hxs : ∀ i ∈ xs, ScanOf s.cfg.variant i := fun i hi => hscan i (by simp [hi])
  have hys : ∀ i ∈ ys, ScanOf s.cfg.variant i := fun i hi => hscan i (by simp [hi])
  have hzs : ∀ i ∈ zs, ScanOf s.cfg.variant i := fun i hi => hscan i (by simp [hi])
  obtain ⟨u, before, at_u⟩ := run_chord_to_second_write hw he hxs hys hzs ⟨rfl, hs, rfl, hp, hl, ht⟩
  obtain ⟨t, last, at_t⟩ := run_pending_write hw at_u
  have steps : 4 + xs.length + ys.length + zs.length = 3 + xs.length + ys.length + zs.length + 1 := by omega
  have wholeRun := exec_keyEvent_whole (s := { s with trace := [] }) he rfl
  exact ⟨⟨u, before, at_u.ks, at_u.pend⟩,
    t, _, steps ▸ run_trans before last, wholeRun, at_t.ks, at_t.pend, at_t.line, at_t.trace⟩

end Sys2Proof.Proofs.Memory

/-! The statements of the family `30_encoding.md`: the encodings, the written trace, the packed-keycode rows, and what
the two responder variants have in common. -/

namespace Sys2Proof.Proofs.Encoding

open Sys2Proof Sys2Proof.Machine Sys2Proof.Proofs.MachineState Sys2Proof.Proofs.Memory

/-! ## Packed keycodes (R49 to R53) -/

@[simp] theorem extractLsb'_pressedByte (p : Bool) (k : Byte) : (pressedByte p k).extractLsb' 0 8 = k :=
  BitVec.extractLsb'_append_eq_right

@[simp] theorem getElem_pressedByte (p : Bool) (k : Byte) : (pressedByte p k)[8] = p := by revert p k; decide

/-- The operand field of a `SETKEY` word, and a packed item, are their bit 8 above their byte. -/
theorem pressedByte_fields {n : Nat} (w : BitVec n) :
    pressedByte (w.getLsbD 8) (w.extractLsb' 0 8) = w.extractLsb' 0 9 := by
  have hbit : BitVec.ofBool (w.getLsbD 8) = w.extractLsb' 8 1 := by
    ext i hi
    obtain rfl : i = 0 := by omega
    simp
  rw [pressedByte, hbit]
  exact BitVec.extractLsb'_append_extractLsb'_eq_extractLsb' rfl

/-- The one byte with column field 7 that is not reserved is `0xFF` (R53). -/
theorem packByte_seven_eq_nomapByte {m : Modifier} {r : Row} :
    packByte m 7#3 r = nomapByte ↔ m = .shift ∧ r = 7 := by
  cases m <;> (revert r; decide)

theorem classify_packByte_seven {m : Modifier} {r : Row} (h : ¬(m = .shift ∧ r = 7)) :
    classify (packByte m 7#3 r) = .reserved :=
  classify_eq_reserved.mpr ⟨kColumn_packByte m 7#3 r, mt packByte_seven_eq_nomapByte.mp h⟩

theorem decode_encode {i : Instr} (hi : i.wellFormed = true) : decode (encode i) = .ok i := by
  cases i with
  | reset => decide
  | keyup h => exact decode_encode_keyEvent false h
  | keydn h => exact decode_encode_keyEvent true h
  | poll lv => exact decode_encode_scan rfl
  | edge id => exact decode_encode_scan rfl
  | setkey p k => exact decode_encode_setkey p k
  | slotwr c v => exact decode_encode_slotwr c v
  | pkReserved p m r =>
    have hclass : classify (packByte m 7#3 r) = .reserved :=
      classify_packByte_seven (by simpa [Instr.wellFormed, imp_iff_not_or] using hi)
    simp [encode, decode, decodePk, hclass]
  | _ => simp [encode, decode, decodePk]

/-- Settles O1: each operand is read back from the bits it was written into. -/
theorem decodeOfEncodeIsTheOperation : Obligations.DecodeOfEncodeIsTheOperation := fun _ hi => decode_encode hi

theorem encode_decodePk (w : BitVec 9) : encode (decodePk w) = .pk w := by
  obtain ⟨p, k, rfl⟩ : ∃ p k, w = pressedByte p k := 
    ⟨_, _, ((pressedByte_fields w).trans BitVec.extractLsb'_eq_self).symm⟩
  cases hk : classify k with
  | nomap => simp [decodePk, encode, classify_eq_nomap.mp hk]
  | reserved =>
    have hcol : kColumn k = 7#3 := (classify_eq_reserved.mp hk).1
    simp [decodePk, hk, encode, ← hcol, packByte_fields]
  | key m c r =>
    obtain rfl := classify_eq_key.mp hk
    cases m <;> simp [decodePk, encode]

/-! ## The rows of the opcode map (R48) -/

/-- A word matches a row whose mask keeps the upper `m` bits exactly when these bits are the row's. -/
theorem and_mask_eq_iff {m n : Nat} (w : BitVec (m + n)) (high : BitVec m) :
    w &&& (BitVec.allOnes m ++ 0#n) = high ++ 0#n ↔ w.extractLsb' n m = high := by
  constructor
  · intro h
    simpa [BitVec.extractLsb'_and, BitVec.extractLsb'_append_eq_left] using congrArg (BitVec.extractLsb' n m) h
  · rintro rfl
    rw [← BitVec.extractLsb'_append_extractLsb' (x := w), BitVec.and_append, BitVec.and_allOnes, BitVec.and_zero]
    simp

theorem append_of_and_mask {m n : Nat} {w : BitVec (m + n)} (high : BitVec m)
    (h : w &&& (BitVec.allOnes m ++ 0#n) = high ++ 0#n) : high ++ w.extractLsb' 0 n = w := by
  rw [← (and_mask_eq_iff w high).mp h, BitVec.extractLsb'_append_extractLsb']

/-- The words of such a row are a range of numbers. -/
theorem and_mask_iff_toNat {m n : Nat} {w : BitVec (m + n)} (high : BitVec m) :
    w &&& (BitVec.allOnes m ++ 0#n) = high ++ 0#n ↔ w.toNat / 2 ^ n = high.toNat := by
  have hlt : w.toNat / 2 ^ n < 2 ^ m := by
    rw [Nat.div_lt_iff_lt_mul (by positivity), ← pow_add]; exact w.isLt
  rw [and_mask_eq_iff, ← BitVec.toNat_inj, BitVec.extractLsb'_toNat, Nat.shiftRight_eq_div_pow, Nat.mod_eq_of_lt hlt]

theorem slotBits_of_ofBits {b : BitVec 4} {v : Slot} (h : Slot.ofBits b = some v) : v.bits = b := by
  unfold Slot.ofBits at h
  split at h
  · next hb => cases h; exact hb.symm
  · split at h
    · next hb =>
      cases h
      rw [Slot.bits, rowBits_rowOfBits, ← hb]
      exact BitVec.extractLsb'_append_extractLsb'
    · cases h

theorem decodeSlotwr_ok {w : EventWord} {i : Instr} (h : decodeSlotwr w = .ok i) :
    ∃ c v, i = .slotwr c v ∧ columnBits c ++ v.bits = w.extractLsb' 0 7 := by
  unfold decodeSlotwr at h
  split at h
  · cases h
  · next c hc =>
    split at h
    · cases h
    · next v hv =>
      injection h with h
      refine ⟨c, v, h.symm, ?_⟩
      rw [columnBits_of_columnOfBits hc, slotBits_of_ofBits hv]
      exact BitVec.extractLsb'_append_extractLsb'_eq_extractLsb' rfl

/-- A word that decodes is the encoding of its operation: the row it hits fixes the bits above the operands.
The cases are the rows in the order of R48. -/
theorem encode_of_decodeEw {w : EventWord} {i : Instr} (h : decodeEw w = .ok i) : encode i = .ew w := by
  unfold decodeEw at h
  repeat' split at h
  case isTrue hw =>
    cases h
    exact congrArg Entry.ew ((BitVec.and_allOnes (x := w)).symm.trans hw).symm
  case isTrue hw => cases h; exact congrArg Entry.ew (append_of_and_mask 0b0010#4 hw)
  case isTrue hw => cases h; exact congrArg Entry.ew (append_of_and_mask 0b0011#4 hw)
  case isTrue hw => cases h; exact congrArg Entry.ew (append_of_and_mask 0b01000#5 hw)
  case isTrue hw => cases h; exact congrArg Entry.ew (append_of_and_mask 0b0110#4 hw)
  case isTrue hw =>
    cases h
    rw [encode, pressedByte_fields]
    exact congrArg Entry.ew (append_of_and_mask 0b100#3 hw)
  case isTrue hw =>
    obtain ⟨c, v, rfl, hcv⟩ := decodeSlotwr_ok h
    rw [encode, BitVec.append_assoc, hcv]
    exact congrArg Entry.ew (append_of_and_mask (n := 7) 0b10100#5 hw)
  case isFalse => cases h

/-- Settles O2: an event word by the row it hits, a packed item by the class of its byte. -/
theorem encodeOfDecodeIsTheWord : Obligations.EncodeOfDecodeIsTheWord := by
  intro e i h
  cases e with
  | ew w => exact encode_of_decodeEw h
  | pk w =>
    injection h with h
    rw [← h, encode_decodePk]

/-! ## The reserved words (R57) -/

theorem slotOfBits_eq_none {b : BitVec 4} : Slot.ofBits b = none ↔ 1 ≤ b.toNat ∧ b.toNat ≤ 7 := by
  revert b; decide

theorem decodeSlotwr_error_iff {w : EventWord} : (∃ why, decodeSlotwr w = .error why) ↔
    w.extractLsb' 4 3 = 7#3 ∨ (1 ≤ (w.extractLsb' 0 4).toNat ∧ (w.extractLsb' 0 4).toNat ≤ 7) := by
  rw [← columnOfBits_eq_none, ← slotOfBits_eq_none, decodeSlotwr]
  cases columnOfBits (w.extractLsb' 4 3) with
  | none => simp
  | some c => cases Slot.ofBits (w.extractLsb' 0 4) <;> simp

/-- The rows of R48 as ranges of a word's number. -/
theorem decodeEw_error_iff {w : EventWord} : (∃ why, decodeEw w = .error why) ↔
    w.toNat ≠ 0 ∧ w.toNat / 256 ≠ 2 ∧ w.toNat / 256 ≠ 3 ∧ w.toNat / 128 ≠ 8 ∧ w.toNat / 256 ≠ 6 ∧
      w.toNat / 512 ≠ 4 ∧ (w.toNat / 128 = 20 → ∃ why, decodeSlotwr w = .error why) := by
  have hreset : w &&& 0xFFF#12 = 0x000#12 ↔ w.toNat = 0 := by
    rw [show w &&& 0xFFF#12 = w from BitVec.and_allOnes, ← BitVec.toNat_inj]; rfl
  have hkeyup : w &&& 0xF00#12 = 0x200#12 ↔ w.toNat / 256 = 2 := and_mask_iff_toNat (n := 8) 0b0010#4
  have hkeydn : w &&& 0xF00#12 = 0x300#12 ↔ w.toNat / 256 = 3 := and_mask_iff_toNat (n := 8) 0b0011#4
  have hpoll : w &&& 0xF80#12 = 0x400#12 ↔ w.toNat / 128 = 8 := and_mask_iff_toNat (n := 7) 0b01000#5
  have hedge : w &&& 0xF00#12 = 0x600#12 ↔ w.toNat / 256 = 6 := and_mask_iff_toNat (n := 8) 0b0110#4
  have hsetkey : w &&& 0xE00#12 = 0x800#12 ↔ w.toNat / 512 = 4 := and_mask_iff_toNat (n := 9) 0b100#3
  have hslotwr : w &&& 0xF80#12 = 0xA00#12 ↔ w.toNat / 128 = 20 := and_mask_iff_toNat (n := 7) 0b10100#5
  simp only [decodeEw, hreset, hkeyup, hkeydn, hpoll, hedge, hsetkey, hslotwr]
  split_ifs <;> simp [*]

theorem step_reservedWord {s : State} {e : Entry} {rest : List Entry} {why : Reserved}
    (hw : s.cfg.wellFormed = true) (ht : s.trace = e :: rest) (hd : decode e = .error why) :
    step s = .refused (.reservedEventWord why) := by
  simp [step, hw, ht, hd]

/-- Settles O3: for each value of `op`, the numbers of R57's fields against the rows' ranges. -/
theorem reservedWordsAreRefused : Obligations.ReservedWordsAreRefused := by
  constructor
  · intro w
    rw [decode, decodeEw_error_iff, decodeSlotwr_error_iff]
    simp only [ne_eq, ← BitVec.toNat_inj, BitVec.extractLsb'_toNat, BitVec.toNat_ofNat, Nat.shiftRight_eq_div_pow]
    have hlt := w.isLt
    obtain ⟨op, hop⟩ : ∃ op, w.toNat / 2 ^ 9 = op := ⟨_, rfl⟩
    have hop8 : op < 8 := by omega
    rw [hop]
    interval_cases op <;> simp <;> omega
  · intro s w rest why hw ht hd
    exact step_reservedWord hw ht hd

/-! ## Classes and samples -/

theorem modifierOfBits_eq {b : BitVec 2} {m : Modifier} : Modifier.ofBits b = m ↔ b = m.bits := by
  constructor
  · rintro rfl
    exact (Modifier.bits_ofBits b).symm
  · rintro rfl
    exact Modifier.ofBits_bits m

/-- A byte packs the fields it has (R49, R51). -/
theorem eq_packByte_iff {k : Byte} {m : Modifier} {b : BitVec 3} {r : Row} :
    k = packByte m b r ↔ kModifier k = m ∧ kColumn k = b ∧ kRow k = r := by
  constructor
  · rintro rfl
    simp
  · rintro ⟨rfl, rfl, rfl⟩
    exact (packByte_fields k).symm

/-- Settles O5: a byte is the packing of its fields, and each field is compared as a number. -/
theorem packedKeycodeFields : Obligations.PackedKeycodeFields := by
  intro k
  refine ⟨classify_eq_nomap, classify_eq_reserved, fun m c r => ?_⟩
  rw [classify_eq_key, eq_packByte_iff]
  refine and_congr ?_ (and_congr ?_ ?_)
  · rw [kModifier, modifierOfBits_eq, ← BitVec.toNat_inj]
    cases m <;> rfl
  · rw [kColumn, ← BitVec.toNat_inj, columnBits, BitVec.toNat_ofNat]
    omega
  · rw [kRow, rowOfBits, Fin.ext_iff]

/-- Settles O4: each word is the encoding of its operation. -/
theorem sampleWordsDecode : Obligations.SampleWordsDecode :=
  ⟨decode_encode (i := .reset) rfl, decode_encode (i := .keyup 0x04#8) rfl, decode_encode (i := .keydn 0x2D#8) rfl,
    decode_encode (i := .poll 0b1111011#7) rfl, decode_encode (i := .edge 0x14#8) rfl,
    decode_encode (i := .setkey true 0xE6#8) rfl, decode_encode (i := .slotwr 4 (.rowval 6)) rfl,
    decode_encode (i := .pkNomap false) rfl, decode_encode (i := .pkReserved false .fctn 0) rfl,
    decode_encode (i := .pkNone true 6 7) rfl, decode_encode (i := .pkCtrl false 5 0) rfl,
    decode_encode (i := .pkFctn true 1 2) rfl, decode_encode (i := .pkShift false 6 7) rfl⟩

/-! ## The written line of an operation (R60) -/

/-- A character that stands within a word of a line: no separator and no start of a comment. -/
def isWordChar (c : Char) : Bool := !(c == ' ' || c == ',' || c == '\t') && c != ';'

/-- A word of a line, as `lineWords` cuts them. -/
def isWord (m : List Char) : Bool := m != [] && m.all isWordChar

/-- What `lineWords` does with one character, the words after it read already. -/
def splitStep (c : Char) (acc : List (List Char)) : List (List Char) :=
  if c == ' ' || c == ',' || c == '\t' then [] :: acc
  else match acc with
    | [] => [[c]]
    | t :: ts => (c :: t) :: ts

theorem lineWords_eq (line : List Char) :
    lineWords line = ((line.takeWhile (· != ';')).foldr splitStep [[]]).filter (· != []) := rfl

theorem foldr_splitStep_word {m : List Char} (hm : m.all isWordChar = true) (t : List Char) (ts : List (List Char)) :
    m.foldr splitStep (t :: ts) = (m ++ t) :: ts := by
  induction m with
  | nil => rfl
  | cons c m ih =>
    obtain ⟨hc, hm⟩ : isWordChar c = true ∧ m.all isWordChar = true := by simpa using hm
    have hsep : (c == ' ' || c == ',' || c == '\t') = false := by simp_all [isWordChar]
    simp [ih hm, splitStep, hsep]

theorem takeWhile_word {m : List Char} (hm : m.all isWordChar = true) (rest : List Char) :
    (m ++ rest).takeWhile (· != ';') = m ++ rest.takeWhile (· != ';') := by
  refine List.takeWhile_append_of_pos fun c hc => ?_
  have := List.all_eq_true.mp hm c hc
  simp_all [isWordChar]

theorem lineWords_separator {sep : Char} (hsep : sep = ' ' ∨ sep = ',') (rest : List Char) :
    lineWords (sep :: rest) = lineWords rest := by
  obtain rfl | rfl := hsep <;> simp [lineWords_eq, splitStep]

/-- A word, up to the separator after it, is the first word of its line. -/
theorem lineWords_cons {m : List Char} (hm : isWord m = true) {sep : Char} (hsep : sep = ' ' ∨ sep = ',')
    (rest : List Char) : lineWords (m ++ sep :: rest) = m :: lineWords rest := by
  obtain ⟨hne, hchars⟩ : m ≠ [] ∧ m.all isWordChar = true := by simpa [isWord] using hm
  have hkept : (sep != ';') = true := by obtain rfl | rfl := hsep <;> rfl
  have hsplit (acc : List (List Char)) : splitStep sep acc = [] :: acc := by obtain rfl | rfl := hsep <;> rfl
  simp [lineWords_eq, takeWhile_word hchars, hkept, hsplit, foldr_splitStep_word hchars, hne]

/-- A line of one word. -/
theorem lineWords_single {m : List Char} (hm : isWord m = true) : lineWords m = [m] := by
  obtain ⟨hne, hchars⟩ : m ≠ [] ∧ m.all isWordChar = true := by simpa [isWord] using hm
  have htake : m.takeWhile (· != ';') = m := by simpa using takeWhile_word hchars []
  simp [lineWords_eq, htake, foldr_splitStep_word hchars, hne]

/-- A mnemonic and its operand. -/
theorem lineWords_two {m a : List Char} (hm : isWord m = true) (ha : isWord a = true) :
    lineWords (m ++ ' ' :: a) = [m, a] := by
  rw [lineWords_cons hm (.inl rfl), lineWords_single ha]

/-- A mnemonic and its two operands. -/
theorem lineWords_three {m a b : List Char} (hm : isWord m = true) (ha : isWord a = true) (hb : isWord b = true) :
    lineWords (m ++ ' ' :: (a ++ ',' :: ' ' :: b)) = [m, a, b] := by
  rw [lineWords_cons hm (.inl rfl), lineWords_cons ha (.inr rfl), lineWords_separator (.inl rfl), lineWords_single hb]

theorem isWord_hexByte (h : Byte) : isWord (hexByte h.toNat) = true := by revert h; decide

theorem readByte_hexByte (h : Byte) : readByte (hexByte h.toNat) = some h := by revert h; decide

theorem isWord_binLevels (lv : Levels) : isWord (binLevels lv) = true := by revert lv; decide

theorem readBelow_binLevels (lv : Levels) : readBelow 128 (binLevels lv) = some lv.toNat := by revert lv; decide

theorem isWord_columnDigit (c : Column) : isWord [hexDigit c.val] = true := by revert c; decide

theorem readColumn_digit (c : Column) : readColumn [hexDigit c.val] = some c := by revert c; decide

theorem isWord_slotDigits (v : Slot) : isWord ['0', 'x', hexDigit v.bits.toNat] = true := by
  cases v with
  | idle => decide
  | rowval r => revert r; decide

theorem readSlot_digit (v : Slot) : readSlot ['0', 'x', hexDigit v.bits.toNat] = some v := by
  cases v with
  | idle => decide
  | rowval r => revert r; decide

theorem readBelow_bit (p : Bool) : readBelow 2 [if p then '1' else '0'] = some p.toNat := by cases p <;> decide

/-- Settles O6: the words of the line are the mnemonic and the operands' numbers, and each number reads back. -/
theorem writtenLineReadsBack : Obligations.WrittenLineReadsBack := by
  intro i hi
  have pkHasNoLine {p : Bool} {k : Byte} (hk : i.setkeyOperands = some (p, k)) (hne : i ≠ .setkey p k) : False :=
    hne (hi p k hk)
  cases i with
  | reset =>
    have hw : lineWords (instrText .reset) = ["RESET".toList] := lineWords_single (by decide)
    simp [readLine, hw]
  | keyup h =>
    have hw : lineWords (instrText (.keyup h)) = ["KEYUP".toList, hexByte h.toNat] :=
      lineWords_two (m := "KEYUP".toList) (by decide) (isWord_hexByte h)
    simp [readLine, hw, readOp, readByte_hexByte]
  | keydn h =>
    have hw : lineWords (instrText (.keydn h)) = ["KEYDN".toList, hexByte h.toNat] :=
      lineWords_two (m := "KEYDN".toList) (by decide) (isWord_hexByte h)
    simp [readLine, hw, readOp, readByte_hexByte]
  | poll lv =>
    have hw : lineWords (instrText (.poll lv)) = ["POLL".toList, binLevels lv] :=
      lineWords_two (m := "POLL".toList) (by decide) (isWord_binLevels lv)
    simp [readLine, hw, readOp, readBelow_binLevels]
  | edge id =>
    have hw : lineWords (instrText (.edge id)) = ["EDGE".toList, hexByte id.toNat] :=
      lineWords_two (m := "EDGE".toList) (by decide) (isWord_hexByte id)
    simp [readLine, hw, readOp, readByte_hexByte]
  | setkey p k =>
    have hw : lineWords (instrText (.setkey p k)) = ["SETKEY".toList, [if p then '1' else '0'], hexByte k.toNat] :=
      lineWords_three (m := "SETKEY".toList) (a := [if p then '1' else '0']) (by decide) (by cases p <;> decide)
        (isWord_hexByte k)
    simp only [readLine, hw, readOp2, readBelow_bit, readByte_hexByte]
    cases p <;> simp
  | slotwr c v =>
    have hw : lineWords (instrText (.slotwr c v)) =
        ["SLOTWR".toList, [hexDigit c.val], ['0', 'x', hexDigit v.bits.toNat]] :=
      lineWords_three (m := "SLOTWR".toList) (a := [hexDigit c.val]) (by decide) (isWord_columnDigit c)
        (isWord_slotDigits v)
    simp [readLine, hw, readOp2, readColumn_digit, readSlot_digit]
  | _ => exact (pkHasNoLine rfl nofun).elim

/-! ## The step (R24, R61, R140) -/

theorem step_no_event {s : State} (hw : s.cfg.wellFormed = true) (ht : s.trace = []) : step s = s.await := by
  simp [step, hw, ht]

/-- Settles O12: the wait is refused exactly while a key event is under way. -/
theorem stepWithNoEvent : Obligations.StepWithNoEvent := by
  intro s hw ht
  rw [step_no_event hw ht, State.await]
  constructor
  · intro hl hp
    simp [State.keyEventOpen_eq_false.mpr ⟨hl, hp⟩]
  · intro hunder
    simp [State.keyEventOpen_eq_true.mpr hunder]

/-- In a run an operation that may not come now is refused, as a stray line unless it is a key event (R24, R61). -/
theorem admission_stray {i : Instr} {s : State} (hs : s.started = true) (hi : isKeyEvent i = false)
    (hm : ¬ s.mayRun i = true) : s.admission i = some .notAStepOfTheKeyEvent := by
  simp [State.admission, hs, hi, hm]

theorem isKeyEvent_of_setkeyOperands {i : Instr} {x : Bool × Byte} (hi : i.setkeyOperands = some x) :
    isKeyEvent i = false := by
  cases i with
  | keyup _ => cases hi
  | keydn _ => cases hi
  | _ => rfl

/-- Settles O15: the admission check holds the line against the one due. -/
theorem strayInternalLineRefused : Obligations.StrayInternalLineRefused := by
  intro s e rest i hw hs ht hd
  constructor
  · intro p k hi hl
    exact step_not_admitted hw ht hd
      (admission_stray hs (isKeyEvent_of_setkeyOperands hi) (mt (mayRun_setkeyOperands hi).mp hl))
  · rintro c v rfl hdue
    exact step_not_admitted hw ht hd (admission_stray hs rfl (mt mayRun_slotwr.mp hdue))

/-! ## Key events and packed codes -/

/-- Settles O24: a key event with its lines to follow, as a press and as a release. -/
theorem writtenOutKeyEventOpensItsSetkey : Obligations.WrittenOutKeyEventOpensItsSetkey :=
  fun _ h hs => ⟨keyEvent_writtenOut true h hs, keyEvent_writtenOut false h hs⟩

/-- Settles O30: `0xFF` is `NOMAP`, and the row is a `setKey` of it. -/
theorem setkeyOfNoMapping : Obligations.SetkeyOfNoMapping :=
  fun s p => ⟨setKey_nomap p s, setKey_nomap p s⟩

/-- Settles O33: a byte with column field 7 that is not `0xFF` is of the reserved class. -/
theorem reservedKeycodeRefused : Obligations.ReservedKeycodeRefused :=
  ⟨fun s p _ hcol hne => setKey_reserved p s (classify_eq_reserved.mpr ⟨hcol, hne⟩), fun _ _ _ _ => rfl⟩

/-- Settles O34: each row is `setKey` of its byte, whose class is the row's modifier, column and row. -/
theorem packedRowsPerformTheirWrites : Obligations.PackedRowsPerformTheirWrites := by
  intro s p c r
  constructor
  · rintro i k (rfl | rfl | rfl | rfl | rfl) hk <;> (cases hk; rfl)
  · intro hl
    constructor
    · exact setKey_whole_unchorded p (classify_packByte .none c r) rfl (hl _)
    · intro key cm hcm
      cases key with
      | ctrl => exact setKey_whole_chorded p (classify_packByte .ctrl c r) rfl hcm (hl _)
      | fctn => exact setKey_whole_chorded p (classify_packByte .fctn c r) rfl hcm (hl _)
      | shift => exact setKey_whole_chorded p (classify_packByte .shift c r) rfl hcm (hl _)

/-! ## The two responder variants (R62, R99) -/

/-- Settles O43: each scan event asks the variant first. -/
theorem absentVariantRefused : Obligations.AbsentVariantRefused := by
  intro s
  constructor
  · intro lv hv
    simp [exec, execPoll, hv]
  · intro id hv
    simp [exec, execEdge, hv]

/-- The `POLL` of one column closes the row the column's slot records (R87, R89). -/
theorem exec_poll_scanLevels {s : State} (c : Column) (hv : s.cfg.variant = .poll) :
    exec (.poll (scanLevels c)) s = .next (s.driveRows (slotRows (s.slot c))) := by
  rw [exec_poll _ hv, scannedColumns_scanLevels, rowsel_onehot7, State.slot_eq]

/-- The `EDGE` of the column's line closes the same row (R95). -/
theorem exec_edge_columnLine {s : State} (c : Column) (hw : s.cfg.wellFormed = true) (hv : s.cfg.variant = .irq) :
    exec (.edge (s.cfg.columnLine c)) s = .next (s.driveRows (slotRows (s.slot c))).leaveServicing := by
  rw [exec_edge _ hv, service_some (s := s.enterServicing) (Config.colfind_columnLine hw c)]
  rfl

/-- Settles O44: both variants drive the rows of the column's slot. -/
theorem variantsAgreeOnAScannedColumn : Obligations.VariantsAgreeOnAScannedColumn := by
  intro s c hw
  exact ⟨_, _, exec_poll_scanLevels c rfl,
    exec_edge_columnLine (s := { s with cfg := { s.cfg with variant := .irq } }) c hw rfl,
    rfl, slotRows_getLsbD (s.slot c), rfl, rfl⟩

/-- `SCAN c` is one operation in either variant (R61). -/
theorem exec_scan {s : State} (c : Column) (hw : s.cfg.wellFormed = true) :
    ∃ i t, (Pseudo.scan c).expansion s.cfg = some [i] ∧ exec i s = .next t ∧ t.row = slotRows (s.slot c) := by
  cases hv : s.cfg.variant with
  | poll => exact ⟨_, _, by simp [Pseudo.expansion, hv], exec_poll_scanLevels c hv, rfl⟩
  | irq => exact ⟨_, _, by simp [Pseudo.expansion, hv], exec_edge_columnLine c hw hv, rfl⟩

/-- A mapped key's event run as a whole leaves the key's slot with the value of its press or release (R76): the
key's own write is the last. -/
theorem exec_keyEvent_whole_slot {s : State} {h : Byte} {m : Modifier} {c : Column} {r : Row} (p : Bool)
    (hw : s.cfg.wellFormed = true) (hk : classify (s.cfg.klookup h) = .key m c r)
    (hshown : stepsShown s.trace = false) :
    ∃ t, exec (if p then .keydn h else .keyup h) s = .next t ∧ t.slot c = pressValue p r := by
  cases hm : m.key? with
  | none => exact ⟨_, exec_keyEvent_whole (expand_unchorded p hk hm) hshown, slot_putSlot_same _ c _⟩
  | some key =>
    obtain ⟨cm, hcm⟩ := Config.mlookup_column hw key
    exact ⟨_, exec_keyEvent_whole (expand_chorded p hk hm hcm) hshown, slot_putSlot_same _ c _⟩

/-- Settles O45: the scans by the rows they drive, `TAP` as a press and a release of the same key. -/
theorem pseudoOperationsExpand : Obligations.PseudoOperationsExpand := by
  intro s hw
  refine ⟨fun c => ?_, fun hv => ⟨by simp [Pseudo.expansion, hv], ?_⟩, fun hv => by simp [Pseudo.expansion, hv],
    fun h m c r hk _ hshown => ?_⟩
  · obtain ⟨i, t, hi, ht, hrow⟩ := exec_scan c hw
    exact ⟨i, t, hi, ht, fun r => hrow ▸ slotRows_getLsbD (s.slot c) r⟩
  · have hrows : rowsel (scannedColumns 0b1111111#7) s.ks = 0#8 := rfl
    rw [exec_poll _ hv, hrows]
    rfl
  · obtain ⟨t, hdn, hpressed⟩ := exec_keyEvent_whole_slot true hw hk hshown
    obtain ⟨ks, line, rfl⟩ := keyEvent_frame (p := true) (h := h) hdn
    obtain ⟨u, hup, hreleased⟩ :=
      exec_keyEvent_whole_slot (s := { s with ks := ks, line := line }) false hw hk hshown
    exact ⟨.keydn h, .keyup h, _, u, rfl, hdn, hup, hpressed, hreleased⟩

/-! ## The named conditions (R109 to R111) -/

theorem condition_unmappedKey {i : Instr} {s : State} :
    condition i s = some .unmappedKey ↔ ∃ h, (i = .keydn h ∨ i = .keyup h) ∧ s.cfg.klookup h = nomapByte := by
  cases i with
  | keydn h => simp [condition]
  | keyup h => simp [condition]
  | edge id => cases hv : s.cfg.variant <;> simp [condition, hv]
  | _ => simp [condition]

theorem condition_unrecognizedLine {i : Instr} {s : State} :
    condition i s = some .unrecognizedLine ↔
      s.cfg.variant = .irq ∧ ∃ id, i = .edge id ∧ ∀ c, s.cfg.columnLine c ≠ id := by
  cases i with
  | edge id => cases hv : s.cfg.variant <;> simp [condition, hv, Config.colfind_none]
  | _ => simp [condition]

theorem setLine_self {s : State} {l : ShownLine} (hl : s.line = l) : s.setLine l = s := by
  subst hl; rfl

theorem leaveServicing_self {s : State} (hrs : s.rs = .idle) : s.leaveServicing = s := by
  rw [State.leaveServicing, ← hrs]

/-- A whole key event of an unmapped key leaves no line open, and all else as it was (R109). -/
theorem keyEvent_unmapped {s : State} {h : Byte} (p : Bool) (hk : s.cfg.klookup h = nomapByte)
    (hshown : stepsShown s.trace = false) : keyEvent p h s = .next (s.setLine .none) := by
  rw [keyEvent_whole p h hshown, hk, setKey_nomap]
  rfl

/-- Settles O54: an unmapped key writes no slot, an unknown line drives no row. -/
theorem conditionsAreNoOps : Obligations.ConditionsAreNoOps := by
  intro i s
  refine ⟨condition_unmappedKey, condition_unrecognizedLine, fun _ hl hrs hshown hcond => ?_⟩
  obtain hcond | hcond := hcond
  · obtain ⟨h, hi, hk⟩ := condition_unmappedKey.mp hcond
    have unchanged (p : Bool) : keyEvent p h s = .next s := by rw [keyEvent_unmapped p hk hshown, setLine_self hl]
    obtain rfl | rfl := hi
    · exact unchanged true
    · exact unchanged false
  · obtain ⟨hv, id, rfl, hid⟩ := condition_unrecognizedLine.mp hcond
    rw [exec_edge id hv, service_none (s := s.enterServicing) (Config.colfind_none.mpr hid)]
    exact congrArg _ (leaveServicing_self hrs)

/-! ## Malformed packed keycodes are not met (R111) -/

/-- The decoder gives `PK.RESERVED` only for a byte of the reserved class (R53). -/
theorem classify_of_decode_pkReserved {e : Entry} {p : Bool} {m : Modifier} {r : Row}
    (hd : decode e = .ok (.pkReserved p m r)) : classify (packByte m 7#3 r) = .reserved := by
  refine classify_packByte_seven ?_
  rintro ⟨rfl, rfl⟩
  have he : encode (.pkNomap p) = e := encodeOfDecodeIsTheWord e (.pkReserved p .shift 7) hd
  rw [← he, decode_encode rfl] at hd
  cases hd

theorem setKey_refused_reserved {p : Bool} {k k' : Byte} {s : State}
    (h : setKey p k s = .refused (.reservedKeycode k')) : classify k = .reserved := by
  unfold setKey at h
  split at h
  · cases h
  · assumption
  · split at h <;> cases h

theorem keyEvent_not_refused_reserved {p : Bool} {h k : Byte} {s : State} (hw : s.cfg.wellFormed = true) :
    keyEvent p h s ≠ .refused (.reservedKeycode k) := by
  intro hx
  cases hs : stepsShown s.trace with
  | true => rw [keyEvent_writtenOut p h hs] at hx; cases hx
  | false =>
    rw [keyEvent_whole p h hs] at hx
    exact Config.klookup_not_reserved hw h (setKey_refused_reserved hx)

/-- The `SETKEY` line due names a code of the table, which is none of the reserved ones (R65, R75). -/
theorem line_not_reserved {s : State} {p : Bool} {k : Byte} (hi : s.Inv) (hl : s.line = .setkey p k) :
    classify k ≠ .reserved := by
  obtain ⟨hw, -, -, hf⟩ := hi
  obtain ⟨-, rfl | hmem⟩ := lineFits_setkey hf hl
  · simp
  · exact Config.entry_not_reserved hw hmem

/-- An operation refused for a reserved code is a `SETKEY` or packed-keycode line of that class. -/
theorem setkeyOperands_of_refused_reserved {e : Entry} {i : Instr} {k : Byte} {s : State}
    (hw : s.cfg.wellFormed = true) (hd : decode e = .ok i) (h : exec i s = .refused (.reservedKeycode k)) :
    ∃ p k', i.setkeyOperands = some (p, k') ∧ classify k' = .reserved := by
  cases i with
  | reset => cases h
  | slotwr c v => cases h
  | keyup x => exact (keyEvent_not_refused_reserved hw h).elim
  | keydn x => exact (keyEvent_not_refused_reserved hw h).elim
  | poll lv => cases hv : s.cfg.variant <;> simp [exec, execPoll, hv] at h
  | edge id => cases hv : s.cfg.variant <;> simp [exec, execEdge, hv] at h
  | pkReserved p m r => exact ⟨p, _, rfl, classify_of_decode_pkReserved hd⟩
  | _ p => exact ⟨p, _, rfl, setKey_refused_reserved (p := p) h⟩

theorem admission_ne_reservedKeycode (i : Instr) (s : State) (k : Byte) :
    s.admission i ≠ some (.reservedKeycode k) := by
  unfold State.admission
  repeat' split
  all_goals simp

/-- Settles O57: of a step's refusals only an operation's own can name a code, and that code is the line due. -/
theorem malformedKeycodeIsUnreachable : Obligations.MalformedKeycodeIsUnreachable := by
  intro s k hi h
  have ⟨hw, _, _, _⟩ := hi
  cases ht : s.trace with
  | nil =>
    rw [step_no_event hw ht, State.await] at h
    split at h <;> cases h
  | cons e rest =>
    cases hd : decode e with
    | error why => rw [step_reservedWord hw ht hd] at h; cases h
    | ok i =>
      cases ha : s.admission i with
      | some r =>
        rw [step_not_admitted hw ht hd ha] at h
        injection h with h
        exact admission_ne_reservedKeycode i s k (h ▸ ha)
      | none =>
        rw [step_admitted hw ht hd ha] at h
        obtain ⟨p, k', hop, hres⟩ := setkeyOperands_of_refused_reserved (s := s.setTrace rest) hw hd h
        exact line_not_reserved hi ((mayRun_setkeyOperands hop).mp (mayRun_of_admission ha)) hres

end Sys2Proof.Proofs.Encoding

/-! The statements of the family `40_tables.md`: what the lookups answer, and a letter as the rows show it. -/

namespace Sys2Proof.Proofs.Tables

open Sys2Proof Sys2Proof.Machine Sys2Proof.Proofs.MachineState Sys2Proof.Proofs.Memory Sys2Proof.Proofs.Encoding

/-- Settles O16: the Keycode Table ends at `0x52` (K1). -/
theorem keycodesAboveTheTableAreUnmapped : Obligations.KeycodesAboveTheTableAreUnmapped :=
  Config.klookup_above

/-! ## The constraints of R12, each said of the lookups -/

theorem unsupportedHid_eq_true {n : Nat} :
    unsupportedHid n = true ↔ n ≤ 0x03 ∨ (0x29 ≤ n ∧ n ≤ 0x2B) ∨ (0x39 ≤ n ∧ n ≤ 0x4E) := by
  simp [unsupportedHid, or_assoc]

/-- K3 (R66), of a keycode as a byte. -/
theorem klookup_unsupported {cfg : Config} (hw : cfg.wellFormed = true) {h : Byte}
    (hh : unsupportedHid h.toNat = true) : cfg.klookup h = nomapByte := by
  obtain ⟨-, -, hk3, -⟩ := cfg.wellFormed_iff.mp hw
  have stored : h.toNat ∈ List.range 83 := by
    have range := unsupportedHid_eq_true.mp hh
    rw [List.mem_range]
    omega
  have constraint := List.all_eq_true.mp hk3 h.toNat stored
  simpa [hh] using constraint

/-- K4 (R67). -/
theorem classify_klookup_A {cfg : Config} (hw : cfg.wellFormed = true) :
    ∃ c r, classify (cfg.klookup 0x04#8) = .key .none c r := by
  obtain ⟨-, -, -, hk4, -⟩ := cfg.wellFormed_iff.mp hw
  unfold Config.letterA at hk4
  split at hk4
  · next c r hk => exact ⟨c, r, hk⟩
  · cases hk4

/-- K5 (R68). -/
theorem classify_klookup_Minus {cfg : Config} (hw : cfg.wellFormed = true) :
    ∃ c r, classify (cfg.klookup 0x2D#8) = .key .shift c r := by
  obtain ⟨-, -, -, -, hk5, -⟩ := cfg.wellFormed_iff.mp hw
  unfold Config.minusShifted at hk5
  split at hk5
  · next c r hk => exact ⟨c, r, hk⟩
  · cases hk5

/-- M1 (R70): no two modifier keys share a coordinate. -/
theorem plainCoordinate_mlookup_injective {cfg : Config} (hw : cfg.wellFormed = true) {a b : ModKey}
    (hab : plainCoordinate (cfg.mlookup a) = plainCoordinate (cfg.mlookup b)) : a = b := by
  obtain ⟨-, -, -, -, -, hm1, -⟩ := cfg.wellFormed_iff.mp hw
  unfold Config.modifiersPlain at hm1
  split at hm1
  · next x y z hx hy hz =>
    obtain ⟨⟨hxy, hxz⟩, hyz⟩ : (x ≠ y ∧ x ≠ z) ∧ y ≠ z := by simpa using hm1
    cases a <;> cases b <;> simp [hx, hy, hz, hxy, hxz, hyz, hxy.symm, hxz.symm, hyz.symm] at hab ⊢
  · cases hm1

theorem classify_mlookup_injective {cfg : Config} (hw : cfg.wellFormed = true) {a b : ModKey}
    (hab : classify (cfg.mlookup a) = classify (cfg.mlookup b)) : a = b :=
  plainCoordinate_mlookup_injective hw (by unfold plainCoordinate; rw [hab])

/-- Settles O17: one constraint of R12 for each clause; M1 gives the two of the modifier entries. -/
theorem wellFormedTablesAnswerKeys : Obligations.WellFormedTablesAnswerKeys := by
  intro cfg hw
  exact ⟨Config.klookup_not_reserved hw,
    fun _ hh => klookup_unsupported hw (unsupportedHid_eq_true.mpr hh),
    classify_klookup_A hw, classify_klookup_Minus hw, Config.mlookup_plain hw,
    fun _ _ => classify_mlookup_injective hw,
    fun _ _ _ _ _ _ _ hk hm hkm => Config.lookup_columns_differ hw hk hm (columnOfBits_of_classify hkm)⟩

/-! ## Scenario S6 -/

/-- A row recorded where nothing was recorded shows in its own column and in no other. -/
theorem slot_putSlot_rowval_iff {s : State} (hidle : ∀ x, s.slot x = .idle) (c c' : Column) (r r' : Row) :
    (s.putSlot c (.rowval r)).slot c' = .rowval r' ↔ c' = c ∧ r' = r := by
  by_cases hc : c' = c
  · subst hc
    simp [slot_putSlot_same, eq_comm]
  · simp [slot_putSlot_ne s _ (Ne.symm hc), hidle, hc]

/-- Settles O50: A is unchorded, so the press writes its one slot, and a scan of one column shows that column's slot. -/
theorem pressedLetterShowsInItsColumn : Obligations.PressedLetterShowsInItsColumn := by
  intro s c r _ hv _ hshown hidle hA
  have press : exec (.keydn 0x04#8) s = .next ((s.setLine .none).putSlot c (.rowval r)) :=
    exec_keyEvent_whole (expand_unchorded true hA rfl) hshown
  refine ⟨_, press, rfl, fun c' => ⟨_, exec_poll_scanLevels c' hv, fun r' => ?_⟩⟩
  exact (slotRows_getLsbD _ r').trans (slot_putSlot_rowval_iff (s := s.setLine .none) hidle c c' r r')

end Sys2Proof.Proofs.Tables

/-! The statements of the family `41_translator.md`: the writes of `SETKEY` and of a key event run as a whole, two and
three key events in a row, and runs of port events. -/

namespace Sys2Proof.Proofs.Translator

open Sys2Proof Sys2Proof.Machine Sys2Proof.Proofs.MachineState Sys2Proof.Proofs.Memory Sys2Proof.Proofs.Encoding

/-! ## One `SETKEY` and one key event (R73 to R76) -/

/-- Settles O31: the writes of `EXPAND`, of an unchorded code and of a chorded one. -/
theorem setkeyPerformsItsWrites : Obligations.SetkeyPerformsItsWrites := by
  intro s p k m c r hk hl
  constructor
  · rintro rfl
    exact setKey_whole_unchorded p hk rfl hl
  · intro key cm hm hcm
    exact setKey_whole_chorded p hk hm hcm hl

/-- A press or a release run as a whole: the `setKey` it is, and its next state by the class of its code. -/
theorem keyEvent_whole_forms {s : State} (p : Bool) (h : Byte) (hshown : stepsShown s.trace = false) :
    keyEvent p h s = setKey p (s.cfg.klookup h) (s.setLine .none) ∧
    (s.cfg.klookup h = nomapByte → keyEvent p h s = .next (s.setLine .none)) ∧
    ∀ m c r, classify (s.cfg.klookup h) = .key m c r →
      (m = .none → keyEvent p h s = .next ((s.setLine .none).putSlot c (pressValue p r))) ∧
      ∀ key cm, m.key? = some key → columnOfBits (kColumn (s.cfg.mlookup key)) = some cm →
        keyEvent p h s = .next
          (((s.setLine .none).putSlot cm (pressValue p (kRow (s.cfg.mlookup key)))).putSlot c (pressValue p r)) := by
  have whole := keyEvent_whole p h hshown
  refine ⟨whole, fun hk => keyEvent_unmapped p hk hshown, fun m c r hk => ⟨?_, fun key cm hm hcm => ?_⟩⟩
  · rintro rfl
    exact whole.trans (setKey_whole_unchorded p hk rfl (by simp))
  · exact whole.trans (setKey_whole_chorded (s := s.setLine .none) p hk hm hcm (by simp))

/-- Settles O19: the forms of a press. -/
theorem keydnRecordsTheKey : Obligations.KeydnRecordsTheKey :=
  fun _ h _ hshown => keyEvent_whole_forms true h hshown

/-- Settles O20: the forms of a release. -/
theorem keyupClearsTheKey : Obligations.KeyupClearsTheKey :=
  fun _ h _ hshown => keyEvent_whole_forms false h hshown

/-! ## A whole key event of a well-formed configuration as a function of the state -/

/-- The slot writes of a key event, in their order; an unmapped key has none (R75, R76). -/
def keyWrites (cfg : Config) (p : Bool) (h : Byte) : List Write := (expand cfg (cfg.klookup h) p).getD []

/-- The state a key event run as a whole leaves. -/
def afterKey (p : Bool) (h : Byte) (s : State) : State := (s.setLine .none).putAll (keyWrites s.cfg p h)

@[simp] theorem afterKey_cfg (p : Bool) (h : Byte) (s : State) : (afterKey p h s).cfg = s.cfg := State.putAll_cfg _ _
@[simp] theorem afterKey_pend (p : Bool) (h : Byte) (s : State) : (afterKey p h s).pend = s.pend :=
  State.putAll_pend _ _
@[simp] theorem afterKey_line (p : Bool) (h : Byte) (s : State) : (afterKey p h s).line = .none := State.putAll_line _ _
@[simp] theorem afterKey_started (p : Bool) (h : Byte) (s : State) : (afterKey p h s).started = s.started :=
  State.putAll_started _ _
@[simp] theorem afterKey_trace (p : Bool) (h : Byte) (s : State) : (afterKey p h s).trace = s.trace :=
  State.putAll_trace _ _

/-- A key event run as a whole completes: the code it looks up is no mapping or has its writes (R65, R70, R85). -/
theorem keyEvent_afterKey {s : State} (p : Bool) (h : Byte) (hw : s.cfg.wellFormed = true)
    (hshown : stepsShown s.trace = false) : keyEvent p h s = .next (afterKey p h s) := by
  unfold afterKey keyWrites
  cases hk : classify (s.cfg.klookup h) with
  | nomap =>
    have hcode := classify_eq_nomap.mp hk
    have noWrites : expand s.cfg (s.cfg.klookup h) p = none := by simp [expand, hk]
    rw [keyEvent_unmapped p hcode hshown, noWrites]
    rfl
  | reserved => exact absurd hk (Config.klookup_not_reserved hw h)
  | key m c r =>
    obtain ⟨ws, he⟩ := expand_total hw p hk
    rw [keyEvent_whole p h hshown, setKey_expand (s := s.setLine .none) he, he]
    cases ws <;> rfl

/-- Settles O21: an event written out opens its `SETKEY` line, a whole one performs its writes. -/
theorem keyEventsAlwaysComplete : Obligations.KeyEventsAlwaysComplete := by
  intro s h hw
  have completes (p : Bool) : ∃ t, keyEvent p h s = .next t := by
    cases hshown : stepsShown s.trace with
    | true => exact ⟨_, keyEvent_writtenOut p h hshown⟩
    | false => exact ⟨_, keyEvent_afterKey p h hw hshown⟩
  exact ⟨completes true, completes false⟩

/-! ## The slots after a key event -/

section slots

variable {s : State} {h : Byte} {m : Modifier} {c : Column} {r : Row} (hw : s.cfg.wellFormed = true)
  (hk : classify (s.cfg.klookup h) = .key m c r)

include hk

theorem keyWrites_unchorded (p : Bool) (hm : m.key? = none) : keyWrites s.cfg p h = [⟨c, pressValue p r⟩] := by
  rw [keyWrites, expand_unchorded p hk hm, Option.getD_some]

theorem keyWrites_chorded {key : ModKey} {cm : Column} {rm : Row} (p : Bool) (hm : m.key? = some key)
    (hkm : classify (s.cfg.mlookup key) = .key .none cm rm) :
    keyWrites s.cfg p h = [⟨cm, pressValue p rm⟩, ⟨c, pressValue p r⟩] := by
  rw [keyWrites, expand_chord p hk hm hkm, Option.getD_some]

include hw

/-- The key's own slot is written last. -/
theorem slot_afterKey_own (p : Bool) : (afterKey p h s).slot c = pressValue p r := by
  unfold afterKey
  cases hm : m.key? with
  | none =>
    rw [keyWrites_unchorded hk p hm]
    exact slot_putSlot_same _ c _
  | some key =>
    obtain ⟨cm, rm, hkm⟩ := Config.mlookup_plain hw key
    rw [keyWrites_chorded hk p hm hkm]
    exact slot_putSlot_same _ c _

/-- The modifier key's slot is written too, and the key's own write is to another column (R71). -/
theorem slot_afterKey_modifier {key : ModKey} {cm : Column} {rm : Row} (p : Bool) (hm : m.key? = some key)
    (hkm : classify (s.cfg.mlookup key) = .key .none cm rm) : (afterKey p h s).slot cm = pressValue p rm := by
  have apart : c ≠ cm := (Config.lookup_columns_differ hw hk hm (columnOfBits_of_classify hkm)).symm
  rw [afterKey, keyWrites_chorded hk p hm hkm]
  exact (slot_putSlot_ne _ _ apart).trans (slot_putSlot_same _ cm _)

end slots

/-- A chorded key's event spares every column but the key's and its modifier key's. -/
theorem slot_afterKey_ne {s : State} {h : Byte} {m : Modifier} {key : ModKey} {c cm c' : Column} {r rm : Row} (p : Bool)
    (hk : classify (s.cfg.klookup h) = .key m c r) (hm : m.key? = some key)
    (hkm : classify (s.cfg.mlookup key) = .key .none cm rm) (hc : c ≠ c') (hcm : cm ≠ c') :
    (afterKey p h s).slot c' = s.slot c' := by
  rw [afterKey, keyWrites_chorded hk p hm hkm]
  exact slot_putAll_ne _ (s.setLine .none) (by simp [hc, hcm])

/-! ## Key events in a row (R80 to R82, R132) -/

/-- What a list of writes leaves in a slot it names does not depend on the state before. -/
theorem slot_putAll_congr {ws : List Write} {c : Column} (s s' : State) (named : ∃ w ∈ ws, w.col = c) :
    (s.putAll ws).slot c = (s'.putAll ws).slot c := by
  induction ws generalizing s s' with
  | nil => simp at named
  | cons w ws ih =>
    by_cases later : ∃ x ∈ ws, x.col = c
    · exact ih (s.putSlot w.col w.val) (s'.putSlot w.col w.val) later
    · have spared : ∀ x ∈ ws, x.col ≠ c := by simpa using later
      obtain rfl : w.col = c := by simpa [later] using named
      have last (u : State) : (u.putAll (w :: ws)).slot w.col = w.val :=
        (slot_putAll_ne ws (u.putSlot w.col w.val) spared).trans (slot_putSlot_same u w.col w.val)
      rw [last s, last s']

/-- The same writes again leave the store as it is. -/
theorem putAll_putAll_ks (ws : List Write) (s : State) : ((s.putAll ws).putAll ws).ks = (s.putAll ws).ks := by
  apply store_ext
  intro c
  by_cases named : ∃ w ∈ ws, w.col = c
  · exact slot_putAll_congr (s.putAll ws) s named
  · exact slot_putAll_ne ws (s.putAll ws) (by simpa using named)

/-- The same key event again leaves the store as it is (R80). -/
theorem afterKey_afterKey_ks (p : Bool) (h : Byte) (s : State) :
    (afterKey p h (afterKey p h s)).ks = (afterKey p h s).ks := by
  have again : afterKey p h (afterKey p h s) = (afterKey p h s).putAll (keyWrites s.cfg p h) := by
    rw [afterKey, setLine_self (afterKey_line p h s), afterKey_cfg]
  rw [again]
  exact putAll_putAll_ks _ (s.setLine .none)

/-- Settles O25: the second event performs the same writes as the first. -/
theorem keyEventsAreIdempotent : Obligations.KeyEventsAreIdempotent := by
  intro s h hw _ hshown
  have twice (p : Bool) : ∃ t u, keyEvent p h s = .next t ∧ keyEvent p h t = .next u ∧ u.ks = t.ks :=
    ⟨_, _, keyEvent_afterKey p h hw hshown, keyEvent_afterKey p h (by simpa) (by simpa), afterKey_afterKey_ks p h s⟩
  exact ⟨twice true, twice false⟩

/-- Settles O26: each clause reads the shared slot as the own slot or the modifier key's slot of either press. -/
theorem laterPressOverwrites : Obligations.LaterPressOverwrites := by
  intro s h1 h2 m1 m2 c1 c2 r1 r2 hw _ hshown hk1 hk2
  have hw' : (afterKey true h1 s).cfg.wellFormed = true := by simpa
  have hk2' : classify ((afterKey true h1 s).cfg.klookup h2) = .key m2 c2 r2 := by simpa
  have own1 : (afterKey true h1 s).slot c1 = .rowval r1 := slot_afterKey_own hw hk1 true
  have own2 : (afterKey true h2 (afterKey true h1 s)).slot c2 = .rowval r2 := slot_afterKey_own hw' hk2' true
  have modifier1 {key cm rm} (hm : m1.key? = some key) (hkm : classify (s.cfg.mlookup key) = .key .none cm rm) :
      (afterKey true h1 s).slot cm = .rowval rm :=
    slot_afterKey_modifier hw hk1 true hm hkm
  have modifier2 {key cm rm} (hm : m2.key? = some key) (hkm : classify (s.cfg.mlookup key) = .key .none cm rm) :
      (afterKey true h2 (afterKey true h1 s)).slot cm = .rowval rm :=
    slot_afterKey_modifier hw' hk2' true hm (by simpa)
  exact ⟨_, _, keyEvent_afterKey true h1 hw hshown, keyEvent_afterKey true h2 hw' (by simpa), own1,
    fun hc => hc ▸ own2, fun _ _ => modifier2, fun _ _ hm hkm => ⟨modifier1 hm hkm, own2⟩,
    fun _ _ _ _ _ hm1 hm2 hkm1 hkm2 => ⟨modifier1 hm1 hkm1, modifier2 hm2 hkm2⟩⟩

/-- Press, press, release of a well-formed configuration, each run as a whole. -/
theorem press_press_release {s : State} (h1 h2 : Byte) (hw : s.cfg.wellFormed = true)
    (hshown : stepsShown s.trace = false) :
    exec (.keydn h1) s = .next (afterKey true h1 s) ∧
    exec (.keydn h2) (afterKey true h1 s) = .next (afterKey true h2 (afterKey true h1 s)) ∧
    exec (.keyup h1) (afterKey true h2 (afterKey true h1 s)) =
      .next (afterKey false h1 (afterKey true h2 (afterKey true h1 s))) :=
  ⟨keyEvent_afterKey true h1 hw hshown, keyEvent_afterKey true h2 (by simpa) (by simpa),
    keyEvent_afterKey false h1 (by simpa) (by simpa)⟩

/-- Settles O27: the second press and the release write the own slot of their keys, which is the same. -/
theorem releaseIsBlind : Obligations.ReleaseIsBlind := by
  intro s h1 h2 m1 m2 c r1 r2 hw _ hshown hk1 hk2
  obtain ⟨press1, press2, release⟩ := press_press_release h1 h2 hw hshown
  exact ⟨_, _, _, press1, press2, release, slot_afterKey_own (by simpa) (by simpa) true,
    slot_afterKey_own (m := m1) (r := r1) (by simpa) (by simpa) false⟩

/-- Settles O28: the release clears the one modifier slot of both chords, and spares the second key's column, which
is neither the first key's nor the modifier key's (R71). -/
theorem chordedReleaseTakesTheModifier : Obligations.ChordedReleaseTakesTheModifier := by
  intro s h1 h2 m key c1 c2 cm r1 r2 rm hw _ hshown hk1 hk2 hne hm hkm
  obtain ⟨press1, press2, release⟩ := press_press_release h1 h2 hw hshown
  have apart : cm ≠ c2 := Config.lookup_columns_differ hw hk2 hm (columnOfBits_of_classify hkm)
  have held : (afterKey true h2 (afterKey true h1 s)).slot c2 = .rowval r2 :=
    slot_afterKey_own (m := m) (by simpa) (by simpa) true
  exact ⟨_, _, _, press1, press2, release,
    slot_afterKey_modifier (c := c2) (r := r2) (by simpa) (by simpa) true hm (by simpa),
    slot_afterKey_modifier (c := c1) (r := r1) (rm := rm) (by simpa) (by simpa) false hm (by simpa),
    slot_afterKey_own (m := m) (r := r1) (by simpa) (by simpa) false,
    (slot_afterKey_ne (r := r1) (rm := rm) false (by simpa) hm (by simpa) hne apart).trans held⟩

/-! ## Runs of port events (R106, R140) -/

/-- An operation that arrives at a port: `RESET`, a key event, or a scan event of the variant `v` (R37, R62). -/
def PortEvent (v : Variant) (i : Instr) : Prop :=
  i = .reset ∨ (∃ h, i = .keydn h) ∨ (∃ h, i = .keyup h) ∨ ScanOf v i

theorem PortEvent.wellFormed {v : Variant} {i : Instr} (hi : PortEvent v i) : i.wellFormed = true := by
  obtain rfl | ⟨h, rfl⟩ | ⟨h, rfl⟩ | ⟨-, lv, rfl⟩ | ⟨-, id, rfl⟩ := hi <;> rfl

theorem PortEvent.not_internal {v : Variant} {i : Instr} (hi : PortEvent v i) :
    (isSetkeyLine i || isSlotwrLine i) = false := by
  obtain rfl | ⟨h, rfl⟩ | ⟨h, rfl⟩ | ⟨-, lv, rfl⟩ | ⟨-, id, rfl⟩ := hi <;> rfl

/-- No port event is an internal line, so none writes a key event out (R61). -/
theorem stepsShown_portEvents {v : Variant} {is : List Instr} (his : ∀ i ∈ is, PortEvent v i) :
    stepsShown (is.map encode) = false := by
  induction is with
  | nil => rfl
  | cons i is ih =>
    obtain ⟨hi, hrest⟩ := List.forall_mem_cons.mp his
    have hd : decode (encode i) = .ok i := decode_encode hi.wellFormed
    by_cases hscan : isScan i = true
    · simp [stepsShown, entryIs, hd, hscan, ih hrest]
    · simp [stepsShown, entryIs, hd, hscan, hi.not_internal]

/-- The translator is between key events, with the operations `is` still to arrive. -/
def Between (cfg : Config) (is : List Instr) (s : State) : Prop :=
  ∃ ks, TranslatorAt cfg ks none .none (is.map encode) s

section run

variable {cfg : Config} {is : List Instr} {s : State} (hw : cfg.wellFormed = true)

include hw

/-- A key event with no line of its own after it runs as a whole. -/
theorem step_keyEvent_whole {p : Bool} {h : Byte} (hshown : stepsShown (is.map encode) = false)
    (between : Between cfg ((if p then .keydn h else .keyup h) :: is) s) :
    ∃ t, step s = .next t ∧ Between cfg is t := by
  obtain ⟨ks, at_s⟩ := between
  have hm : s.mayRun (if p then .keydn h else .keyup h) = true := by
    rw [mayRun_keyEvent (by cases p <;> rfl), State.keyEventOpen_eq_false.mpr ⟨at_s.line, at_s.pend⟩]; rfl
  have hstep := step_of_mayRun hw at_s (decode_encode_keyEvent p h) hm
  rw [exec_keyEvent, keyEvent_afterKey (s := s.setTrace (is.map encode)) p h (at_s.cfg ▸ hw) hshown] at hstep
  exact ⟨_, hstep, _, by simp [at_s.cfg], by simp [at_s.started], rfl, by simp [at_s.pend], by simp, by simp⟩

/-- A port event is never refused, and leaves the translator between key events. -/
theorem step_portEvent {i : Instr} (his : ∀ j ∈ i :: is, PortEvent cfg.variant j)
    (between : Between cfg (i :: is) s) :
    ∃ t, step s = .next t ∧ Between cfg is t := by
  obtain ⟨hi, hrest⟩ := List.forall_mem_cons.mp his
  have hshown := stepsShown_portEvents hrest
  obtain rfl | ⟨h, rfl⟩ | ⟨h, rfl⟩ | hscan := hi
  · obtain ⟨ks, at_s⟩ := between
    exact ⟨_, step_of_mayRun hw at_s (decode_encode rfl) rfl, _, at_s.cfg, rfl, rfl, rfl, rfl, rfl⟩
  · exact step_keyEvent_whole (p := true) hw hshown between
  · exact step_keyEvent_whole (p := false) hw hshown between
  · obtain ⟨ks, at_s⟩ := between
    obtain ⟨t, hstep, at_t⟩ := step_scan hw hscan at_s
    exact ⟨t, hstep, ks, at_t⟩

theorem run_portEvents (his : ∀ i ∈ is, PortEvent cfg.variant i) (between : Between cfg is s) :
    ∃ t, Host.Core.run Sys2Proof.core is.length s = .next t ∧ Between cfg [] t := by
  induction is generalizing s with
  | nil => exact ⟨s, rfl, between⟩
  | cons i is ih =>
    obtain ⟨t, hstep, between_t⟩ := step_portEvent hw his between
    obtain ⟨u, hrun, between_u⟩ := ih (List.forall_mem_cons.mp his).2 between_t
    exact ⟨u, (run_succ hstep).trans hrun, between_u⟩

/-- The first `RESET` runs, and leaves the translator between key events (R127). -/
theorem step_first_reset (is : List Instr) :
    ∃ t, step (State.beforeReset cfg (encode .reset :: is.map encode)) = .next t ∧ Between cfg is t := by
  have admitted : (State.beforeReset cfg (encode .reset :: is.map encode)).admission .reset = none := by
    simp [State.admission, State.mayRun]
  have hw' : (State.beforeReset cfg (encode .reset :: is.map encode)).cfg.wellFormed = true := hw
  exact ⟨_, step_admitted hw' rfl (decode_encode rfl) admitted, _, rfl, rfl, rfl, rfl, rfl, rfl⟩

end run

/-- Settles O58: the first `RESET`, then the port events one by one. -/
theorem everyRunOfPortEventsCompletes : Obligations.EveryRunOfPortEventsCompletes := by
  intro cfg is hw his
  obtain ⟨s, hreset, between⟩ := step_first_reset hw is
  obtain ⟨t, hrun, ks, at_t⟩ := run_portEvents hw his between
  exact ⟨t, (run_succ hreset).trans hrun, at_t.trace, at_t.pend, at_t.started, at_t.cfg⟩

end Sys2Proof.Proofs.Translator

/-! The statements of the family `42_scan_poll.md`: the rows a mask of scanned columns drives, and `POLL`, which
reads its mask off the levels of the columns. -/

namespace Sys2Proof.Proofs.ScanPoll

open Sys2Proof Sys2Proof.Machine Sys2Proof.Proofs.Memory

/-- Settles O38: the loop of `ROWSEL` collects one slot's row at a time, by induction over the columns
(`rowsel_fold`). -/
theorem rowselIsTheUnionOfScannedRows : Obligations.RowselIsTheUnionOfScannedRows := rowsel_getLsbD

/-- The rows `POLL` drives: those recorded for the columns read low (R87). -/
theorem rowsel_scannedColumns_getLsbD (lv : Levels) (ks : Vector Slot 7) (r : Row) :
    (rowsel (scannedColumns lv) ks).getLsbD r.val = true ↔
      ∃ c : Column, lv.getLsbD c.val = false ∧ slotOf ks c = .rowval r := by
  simp only [rowsel_getLsbD, scannedColumns_getLsbD]

/-- No column low, every row at rest (R87). -/
theorem rowsel_scannedColumns_allHigh (ks : Vector Slot 7) : rowsel (scannedColumns 0b1111111#7) ks = 0#8 := by
  have noneLow : ∀ c : Column, (0b1111111#7).getLsbD c.val = true := by decide
  apply rowVec_ext
  intro r
  rw [rowsel_scannedColumns_getLsbD]
  simp only [noneLow, BitVec.getLsbD_zero, Bool.true_eq_false, Bool.false_eq_true, false_and, exists_const]

/-- Settles O39: `POLL` drives the rows recorded for the columns read low, and nothing else. -/
theorem pollClosesTheScannedRows : Obligations.PollClosesTheScannedRows := by
  intro s lv hv
  refine ⟨rowsel (scannedColumns lv) s.ks, exec_poll lv hv, rowsel_scannedColumns_getLsbD lv s.ks, ?_⟩
  rintro rfl
  exact rowsel_scannedColumns_allHigh s.ks

end Sys2Proof.Proofs.ScanPoll

/-! The statements of the family `43_scan_irq.md`: `COLFIND`, the two courses of `EDGE`, and the rows between
recognised edges. -/

namespace Sys2Proof.Proofs.ScanIrq

open Sys2Proof Sys2Proof.Machine Sys2Proof.Proofs.MachineState Sys2Proof.Proofs.Encoding

/-- The `EDGE` of a line that is no column line is a servicing that drives nothing (R97). -/
theorem exec_edge_unknownLine {s : State} {id : LineId} (hv : s.cfg.variant = .irq)
    (hid : ∀ c, s.cfg.columnLine c ≠ id) : exec (.edge id) s = .next s.leaveServicing := by
  rw [Memory.exec_edge id hv, service_none (s := s.enterServicing) (Config.colfind_none.mpr hid)]
  rfl

/-- Settles O40: the line of a column leads to the column's slot, any other line to none. -/
theorem edgeClosesTheColumnsRow : Obligations.EdgeClosesTheColumnsRow := fun _ c hw hv =>
  ⟨exec_edge_columnLine c hw hv, fun _ hid => exec_edge_unknownLine hv hid⟩

/-- Settles O41: the servicing writes the responder state alone, which leaves an idle responder as it was. -/
theorem edgeOfUnknownLineIsANoOp : Obligations.EdgeOfUnknownLineIsANoOp := by
  intro s id hv hid
  have serviced : exec (.edge id) s = .next s.leaveServicing := exec_edge_unknownLine hv hid
  refine ⟨serviced, fun hrs => ?_⟩
  rw [serviced, leaveServicing_self hrs]

/-- `COLFIND` inverts the geometry, whose column lines are distinct (R35, R94). -/
theorem colfind_eq_some {cfg : Config} (hw : cfg.wellFormed = true) {id : LineId} {c : Column} :
    cfg.colfind id = some c ↔ cfg.columnLine c = id := by
  constructor
  · exact Config.colfind_some
  · rintro rfl
    exact Config.colfind_columnLine hw c

/-- Settles O42: a row line is no column line (R35), so the search does not find it. -/
theorem colfindIsTheInverseOfTheGeometry : Obligations.ColfindIsTheInverseOfTheGeometry := fun _ hw =>
  ⟨fun _ _ => colfind_eq_some hw, fun _ => Config.colfind_none,
    fun r => Config.colfind_none.mpr fun c => Config.columnLine_ne_rowLineOf hw c r⟩

/-- In an interrupt instance an operation that goes on writes the rows only as `RESET` or as the `EDGE` of a column
line (R19, R62, R97). -/
theorem exec_keeps_row {i : Instr} {s t : State} (hv : s.cfg.variant = .irq) (hreset : i ≠ .reset)
    (hedge : ∀ c, i ≠ .edge (s.cfg.columnLine c)) (h : exec i s = .next t) : t.row = s.row := by
  cases i with
  | reset => exact absurd rfl hreset
  | poll lv =>
    obtain ⟨hpoll, -⟩ := execPoll_next h
    cases hv.symm.trans hpoll
  | edge id =>
    obtain ⟨-, ⟨c, hc, -⟩ | ⟨-, rfl⟩⟩ := execEdge_next h
    · exact absurd (congrArg Instr.edge (Config.colfind_some hc).symm) (hedge c)
    · rfl
  | _ => exact onlyScansAndResetWriteTheRows _ _ _ h rfl

/-- Settles O47: a step on an event is the event's operation, run with the events after it still to arrive. -/
theorem rowsHoldBetweenEdges : Obligations.RowsHoldBetweenEdges := by
  intro s t e rest i hv htrace hdecode hreset hedge hstep
  obtain ⟨hw, -⟩ := step_cases hstep
  obtain ⟨-, hexec⟩ := step_event_next hw htrace hdecode hstep
  exact exec_keeps_row (s := s.setTrace rest) hv hreset hedge hexec

end Sys2Proof.Proofs.ScanIrq

/-! The statements of the family `44_system.md`: `RESET`, and the line set-up it alone changes. -/

namespace Sys2Proof.Proofs.System

open Sys2Proof Sys2Proof.Machine Sys2Proof.Proofs.MachineState

/-! ## The directions of the line set-up (R103) -/

theorem length_lineDirs (cfg : Config) : cfg.lineDirs.length = 15 := by simp [Config.lineDirs]

theorem columnLine_mem_lineDirs (cfg : Config) (c : Column) : (cfg.columnLine c, Direction.input) ∈ cfg.lineDirs := by
  have inColumns : cfg.columnLine c ∈ cfg.colLine.toList := by simp [Config.columnLine]
  exact List.mem_append_left _ (List.mem_map_of_mem inColumns)

theorem rowLineOf_mem_lineDirs (cfg : Config) (r : Row) :
    (cfg.rowLineOf r, Direction.pushPullOutput) ∈ cfg.lineDirs := by
  have inRows : cfg.rowLineOf r ∈ cfg.rowLine.toList := by simp [Config.rowLineOf]
  exact List.mem_append_right _ (List.mem_map_of_mem inRows)

/-! ## `RESET` -/

theorem initialise_slot (s : State) (c : Column) : s.initialise.slot c = .idle := slotOf_replicate .idle c

/-- An empty latch leaves every row line at rest (R19). -/
theorem rowLevel_of_row_zero {s : State} (hrow : s.row = 0#8) (r : Row) : rowLevel s r = .high := by
  simp [rowLevel, hrow]

/-- The first `RESET` registers the notification sources (R112, R125). -/
theorem initialise_edgeReg_first {s : State} (hs : s.started = false) : s.initialise.edgeReg = s.cfg.edgeSources := by
  simp [hs]

/-- A later `RESET` registers nothing (R104). -/
theorem initialise_edgeReg_later {s : State} (hs : s.started = true) : s.initialise.edgeReg = s.edgeReg := by
  simp [hs]

/-- After one `RESET` the next is a later one, and every other value is assigned afresh (R104). -/
theorem initialise_initialise (s : State) : s.initialise.initialise = s.initialise := rfl

/-- Settles O7: the fields `RESET` assigns, and the line set-up read from the configuration. -/
theorem resetGivesTheResetState : Obligations.ResetGivesTheResetState := fun s =>
  ⟨s.initialise, exec_reset s, initialise_slot s, rfl, rowLevel_of_row_zero rfl, rfl, rfl, rfl, rfl, rfl, rfl,
    length_lineDirs s.cfg, columnLine_mem_lineDirs s.cfg, rowLineOf_mem_lineDirs s.cfg, initialise_edgeReg_first⟩

/-- Settles O8: the second `RESET` finds the state the first one leaves. -/
theorem resetIsIdempotent : Obligations.ResetIsIdempotent := by
  intro s
  have again : exec .reset s.initialise = .next s.initialise := by rw [exec_reset, initialise_initialise]
  exact ⟨s.initialise, exec_reset s, again, rfl, initialise_edgeReg_later⟩

/-- Settles O53: of the ways an operation goes on, only `RESET` has the line set-up outside its frame. -/
theorem lineSetUpStands : Obligations.LineSetUpStands := by
  intro i s t h hreset
  cases goesOn_of_exec h with
  | reset hi _ => exact absurd hi hreset
  | scan _ row rs ht _ =>
    subst ht
    exact ⟨rfl, rfl, rfl⟩
  | keyEvent _ p x hx =>
    obtain ⟨ks, line, rfl⟩ := keyEvent_frame hx
    exact ⟨rfl, rfl, rfl⟩
  | setKey p k _ hx =>
    obtain ⟨ks, line, rfl⟩ := setKey_frame hx
    exact ⟨rfl, rfl, rfl⟩
  | slotwr c v _ ht =>
    subst ht
    exact ⟨State.slotwr_dirs _ s, State.slotwr_edgeReg _ s, State.slotwr_started _ s⟩

end Sys2Proof.Proofs.System

/-! The statements of the family `60_exceptions.md`. -/

namespace Sys2Proof.Proofs.Exceptions

open Sys2Proof Sys2Proof.Machine Sys2Proof.Proofs.Encoding

/-- Settles O18: a whole event of an unmapped key only closes the open line, which where none is open was so already. -/
theorem unmappedKeyIsANoOp : Obligations.UnmappedKeyIsANoOp := by
  intro s h unmapped _ hshown
  have closesLine (p : Bool) : keyEvent p h s = .next (s.setLine .none) := keyEvent_unmapped p unmapped hshown
  refine ⟨closesLine true, closesLine false, fun noLine => ?_⟩
  have unchanged (p : Bool) : keyEvent p h s = .next s := by rw [closesLine, setLine_self noLine]
  exact ⟨unchanged true, unchanged false⟩

end Sys2Proof.Proofs.Exceptions

/-! The statements of the family `70_reset_and_hazards.md`: what may come before the first `RESET`. -/

namespace Sys2Proof.Proofs.ResetAndHazards

open Sys2Proof Sys2Proof.Machine Sys2Proof.Proofs.MachineState

/-- Before the first `RESET` the admission check passes no other operation (R127). -/
theorem admission_beforeFirstReset {i : Instr} {s : State} (hs : s.started = false) (hi : i ≠ .reset) :
    s.admission i = some .beforeFirstReset := by
  simp [State.admission, hs, hi]

/-- `RESET` may come in every state, before the first one and after (R104, R127). -/
theorem admission_reset (s : State) : s.admission .reset = none := by
  simp [State.admission, State.mayRun]

/-- Settles O13: the admission check refuses every operation but `RESET`, which leaves a state that is started. -/
theorem operationBeforeResetRefused : Obligations.OperationBeforeResetRefused := by
  intro s e rest i hw hs ht hd
  constructor
  · intro hi
    exact step_not_admitted hw ht hd (admission_beforeFirstReset hs hi)
  · rintro rfl
    have hstep := step_admitted hw ht hd (admission_reset s)
    exact ⟨_, hstep.trans (exec_reset _), State.initialise_started _⟩

end Sys2Proof.Proofs.ResetAndHazards
